-- ==== Sys2Proof/Word.lean ====
section
/-! DEFINITION. The word types of the unit and the shapes of its arrays (00_scope.md R7, 10_state.md section 1). -/

namespace Sys2Proof

/-- An 8-bit unsigned value: a register, a timer, a byte of memory, an immediate `kk` (R8, R16). -/
abbrev Byte := BitVec 8

/-- A 16-bit unsigned value: an instruction word, `PC`, `I`, a return address (R18, R19, R22). -/
abbrev Word := BitVec 16

/-- A 4-bit field of an instruction: a register index or a row count (R10, R49). -/
abbrev Nibble := BitVec 4

/-- The 12-bit address field `nnn` (R10, R49). -/
abbrev Addr := BitVec 12

/-- The register file V0 to VF: sixteen 8-bit registers (R16). -/
abbrev RegFile := Vector Byte 16

/-- The return stack: sixteen 16-bit return addresses (R22). -/
abbrev Stack := Vector Word 16

/-- The display, 32 rows of 64 one-bit cells; the cell at column X of row Y is bit X of `d[Y]` (R25). -/
abbrev Display := Vector (BitVec 64) 32

/-- The input latch: one boolean for each key 0x0 to 0xF (R27). -/
abbrev KeyLatch := Vector Bool 16

/-- The 80 bytes of the glyph font table (R21). -/
abbrev Font := Vector Byte 80

end Sys2Proof
end

