-- ==== Sys2Proof/Config.lean ====
section
/-! DEFINITION. What is fixed for one unit (its parameters, 00_scope.md R7) and the free values the spec leaves open.
A free value is an opaque constant: nothing in Lean can evaluate it, so a theorem about it holds for every value. -/

namespace Sys2Proof

/-- What the dispatch does with a non-zero nibble it does not name (R7, R58, R62; D14). -/
inductive IgnoredNibblePolicy where
  /-- The nibble is not examined: the default. -/
  | ignore
  /-- A step that fetches such a word is refused: it has no transition. -/
  | refuse
  deriving DecidableEq, Repr

/-- The configuration arguments of a unit (R7): the font bytes `FONT` (R21, D15) and the policy (D14). They are fixed
when the unit is built and no transaction changes them; State carries them so that every claim is made for all of them.
DESIGN CHOICE: notes/assumptions/5.md, notes/assumptions/6.md. -/
structure Params where
  font : Font
  policy : IgnoredNibblePolicy
  deriving DecidableEq, Repr

/-- The payload of one `step(keys, rnd)` transaction (R32): bit k of `keys` is key k, `rnd` is the random byte. -/
structure StepInput where
  keys : BitVec 16
  rnd : Byte
  deriving DecidableEq, Repr, Inhabited

/-- The state elements that R113 leaves unspecified after a fault, but for memory (see `Config.afterFaultByte`). -/
structure Unspecified where
  v : RegFile
  idx : Word
  pc : Word
  stack : Stack
  sp : Fin 17
  dt : Byte
  st : Byte
  disp : Display
  dchg : Bool
  keys : KeyLatch
  deriving Inhabited

/-- FREE VALUE. The payload the host supplies with a step for which State lists none (R32, R120, R128; D3): any key
vector and any random byte, anew at every draw. DESIGN CHOICE, safe: notes/assumptions/3.md. -/
opaque Config.hostInput : Nat → StepInput

/-- FREE VALUE. What every state element but PHASE, FAULT and memory holds after a fault (R113, D5, U11). DEDUCED, safe:
notes/assumptions/2.md. -/
opaque Config.afterFault : Nat → Unspecified

/-- FREE VALUE. What the byte of memory at an address holds after a fault: first the draw, then the address (R113).
DEDUCED, safe: notes/assumptions/2.md. -/
opaque Config.afterFaultByte : Nat → Nat → Byte

end Sys2Proof
end

