-- ==== Sys2Proof/Syntax.lean ====
section
/-! DEFINITION. The instructions: one constructor for each row of the opcode map (30_encoding.md R65), in the
table's order. Fields the dispatch does not examine (the nibble `u` of CLS, RET, SE Vx, Vy and SNE Vx, Vy; the field
`y` of SHR and SHL; `nnn` of SYS) are kept as operands, so that an encoding loses no bit; no meaning reads them. -/

namespace Sys2Proof

/-- The 35 instructions of R65. `x`, `y`, `n` are 4-bit fields, `kk` an 8-bit and `nnn` a 12-bit field (R10). -/
inductive Instr where
  /-- `0uE0` CLS (R69). -/
  | cls (u : Nibble)
  /-- `0uEE` RET (R72). -/
  | ret (u : Nibble)
  /-- `0nnn` SYS nnn, every family-0x0 word that is neither CLS nor RET (R64). -/
  | sys (nnn : Addr)
  /-- `1nnn` JP nnn (R73). -/
  | jp (nnn : Addr)
  /-- `2nnn` CALL nnn (R74). -/
  | call (nnn : Addr)
  /-- `3xkk` SE Vx, kk (R75). -/
  | seImm (x : Nibble) (kk : Byte)
  /-- `4xkk` SNE Vx, kk (R76). -/
  | sneImm (x : Nibble) (kk : Byte)
  /-- `5xyu` SE Vx, Vy (R77). -/
  | seReg (x y u : Nibble)
  /-- `6xkk` LD Vx, kk (R83). -/
  | ldImm (x : Nibble) (kk : Byte)
  /-- `7xkk` ADD Vx, kk (R84). -/
  | addImm (x : Nibble) (kk : Byte)
  /-- `8xy0` LD Vx, Vy (R85). -/
  | ldReg (x y : Nibble)
  /-- `8xy1` OR Vx, Vy (R86). -/
  | orReg (x y : Nibble)
  /-- `8xy2` AND Vx, Vy (R87). -/
  | andReg (x y : Nibble)
  /-- `8xy3` XOR Vx, Vy (R88). -/
  | xorReg (x y : Nibble)
  /-- `8xy4` ADD Vx, Vy (R89). -/
  | addReg (x y : Nibble)
  /-- `8xy5` SUB Vx, Vy (R90). -/
  | subReg (x y : Nibble)
  /-- `8xy6` SHR Vx; `y` is ignored (R91). -/
  | shr (x y : Nibble)
  /-- `8xy7` SUBN Vx, Vy (R92). -/
  | subnReg (x y : Nibble)
  /-- `8xyE` SHL Vx; `y` is ignored (R93). -/
  | shl (x y : Nibble)
  /-- `9xyu` SNE Vx, Vy (R78). -/
  | sneReg (x y u : Nibble)
  /-- `Annn` LD I, nnn (R96). -/
  | ldI (nnn : Addr)
  /-- `Bnnn` JP V0, nnn (R79). -/
  | jpV0 (nnn : Addr)
  /-- `Cxkk` RND Vx, kk (R95). -/
  | rnd (x : Nibble) (kk : Byte)
  /-- `Dxyn` DRW Vx, Vy, n (R70). -/
  | drw (x y n : Nibble)
  /-- `Ex9E` SKP Vx (R80). -/
  | skp (x : Nibble)
  /-- `ExA1` SKNP Vx (R81). -/
  | sknp (x : Nibble)
  /-- `Fx07` LD Vx, DT (R102). -/
  | ldVxDt (x : Nibble)
  /-- `Fx0A` LD Vx, K (R103). -/
  | ldVxK (x : Nibble)
  /-- `Fx15` LD DT, Vx (R104). -/
  | ldDtVx (x : Nibble)
  /-- `Fx18` LD ST, Vx (R105). -/
  | ldStVx (x : Nibble)
  /-- `Fx1E` ADD I, Vx (R97). -/
  | addI (x : Nibble)
  /-- `Fx29` LD F, Vx (R98). -/
  | ldF (x : Nibble)
  /-- `Fx33` LD B, Vx (R99). -/
  | ldB (x : Nibble)
  /-- `Fx55` LD [I], Vx (R100). -/
  | dump (x : Nibble)
  /-- `Fx65` LD Vx, [I] (R101). -/
  | load (x : Nibble)
  deriving DecidableEq, Repr

end Sys2Proof
end

