-- ==== Sys2Proof/WellFormed.lean ====
section
/-! DEFINITION. Which instructions are well formed. Every operand's range is in its type; the one check left is that
SYS nnn is the REMAINDER of family 0x0 (R64, R65: rows are tested top to bottom): its low byte is neither 0xE0, which
is CLS, nor 0xEE, which is RET. -/

namespace Sys2Proof

/-- The check of SYS: its low byte selects neither CLS nor RET (R58, R64). -/
def sysWellFormed (nnn : Addr) : Bool :=
  nnn.extractLsb' 0 8 != 0xE0#8 && nnn.extractLsb' 0 8 != 0xEE#8

/-- An instruction that some word encodes (R65). -/
def wellFormed (i : Instr) : Bool :=
  match i with
  | .sys nnn => sysWellFormed nnn
  | .cls _ | .ret _ | .jp _ | .call _ | .seImm _ _ | .sneImm _ _ | .seReg _ _ _ | .ldImm _ _ | .addImm _ _
  | .ldReg _ _ | .orReg _ _ | .andReg _ _ | .xorReg _ _ | .addReg _ _ | .subReg _ _ | .shr _ _ | .subnReg _ _
  | .shl _ _ | .sneReg _ _ _ | .ldI _ | .jpV0 _ | .rnd _ _ | .drw _ _ _ | .skp _ | .sknp _ | .ldVxDt _
  | .ldVxK _ | .ldDtVx _ | .ldStVx _ | .addI _ | .ldF _ | .ldB _ | .dump _ | .load _ => true

end Sys2Proof
end

