-- ==== Sys2Proof/Decode.lean ====
section
/-! DEFINITION. The instruction dispatcher (30_encoding.md sections 1 and 3): the fields of a word, the total decoder,
which rejects by name, and the encoder, both written from the opcode map R65. The opcode values and most field places
are the spec's general knowledge (UNVERIFIED, unsafe: notes/assumptions/13.md). -/

namespace Sys2Proof

/-- Why bytes are no instruction. -/
inductive DecodeRefusal where
  /-- Fewer than the two bytes every instruction has (R47). -/
  | truncated
  /-- A word no row of the opcode map matches: the step executes it as a no-op (R63). -/
  | undecodable
  /-- The policy `refuse` refuses the word's non-zero ignored nibble (R58, R62). -/
  | ignoredNibble
  deriving DecidableEq, Repr

/-- The family `w[15:12]` (R48). -/
def fieldFamily (w : Word) : Nibble := w.extractLsb' 12 4

/-- The field `x = w[11:8]` (R10, R48). -/
def fieldX (w : Word) : Nibble := w.extractLsb' 8 4

/-- The field `y = w[7:4]` (R10, R48). -/
def fieldY (w : Word) : Nibble := w.extractLsb' 4 4

/-- The field `n = w[3:0]` (R10, R48). -/
def fieldN (w : Word) : Nibble := w.extractLsb' 0 4

/-- The field `kk = w[7:0]` (R10, R48). -/
def fieldKk (w : Word) : Byte := w.extractLsb' 0 8

/-- The field `nnn = w[11:0]` (R10, R48). -/
def fieldNnn (w : Word) : Addr := w.extractLsb' 0 12

/-- Family 0x0 dispatches on the low byte; what is neither CLS nor RET is SYS (R58, R64). -/
def decodeFamily0 (w : Word) : Except DecodeRefusal Instr :=
  match fieldKk w with
  | 0xE0#8 => .ok (.cls (fieldX w))
  | 0xEE#8 => .ok (.ret (fieldX w))
  | _ => .ok (.sys (fieldNnn w))

/-- Family 0x8 dispatches on the low nibble (R59). -/
def decodeFamily8 (w : Word) : Except DecodeRefusal Instr :=
  match fieldN w with
  | 0x0#4 => .ok (.ldReg (fieldX w) (fieldY w))
  | 0x1#4 => .ok (.orReg (fieldX w) (fieldY w))
  | 0x2#4 => .ok (.andReg (fieldX w) (fieldY w))
  | 0x3#4 => .ok (.xorReg (fieldX w) (fieldY w))
  | 0x4#4 => .ok (.addReg (fieldX w) (fieldY w))
  | 0x5#4 => .ok (.subReg (fieldX w) (fieldY w))
  | 0x6#4 => .ok (.shr (fieldX w) (fieldY w))
  | 0x7#4 => .ok (.subnReg (fieldX w) (fieldY w))
  | 0xE#4 => .ok (.shl (fieldX w) (fieldY w))
  | _ => .error .undecodable

/-- Family 0xE dispatches on the low byte (R60). -/
def decodeFamilyE (w : Word) : Except DecodeRefusal Instr :=
  match fieldKk w with
  | 0x9E#8 => .ok (.skp (fieldX w))
  | 0xA1#8 => .ok (.sknp (fieldX w))
  | _ => .error .undecodable

/-- Family 0xF dispatches on the low byte (R61). -/
def decodeFamilyF (w : Word) : Except DecodeRefusal Instr :=
  match fieldKk w with
  | 0x07#8 => .ok (.ldVxDt (fieldX w))
  | 0x0A#8 => .ok (.ldVxK (fieldX w))
  | 0x15#8 => .ok (.ldDtVx (fieldX w))
  | 0x18#8 => .ok (.ldStVx (fieldX w))
  | 0x1E#8 => .ok (.addI (fieldX w))
  | 0x29#8 => .ok (.ldF (fieldX w))
  | 0x33#8 => .ok (.ldB (fieldX w))
  | 0x55#8 => .ok (.dump (fieldX w))
  | 0x65#8 => .ok (.load (fieldX w))
  | _ => .error .undecodable

/-- The decoder of one word: the high nibble selects the family (R57, R65). -/
def decode (w : Word) : Except DecodeRefusal Instr :=
  match fieldFamily w with
  | 0x0#4 => decodeFamily0 w
  | 0x1#4 => .ok (.jp (fieldNnn w))
  | 0x2#4 => .ok (.call (fieldNnn w))
  | 0x3#4 => .ok (.seImm (fieldX w) (fieldKk w))
  | 0x4#4 => .ok (.sneImm (fieldX w) (fieldKk w))
  | 0x5#4 => .ok (.seReg (fieldX w) (fieldY w) (fieldN w))
  | 0x6#4 => .ok (.ldImm (fieldX w) (fieldKk w))
  | 0x7#4 => .ok (.addImm (fieldX w) (fieldKk w))
  | 0x8#4 => decodeFamily8 w
  | 0x9#4 => .ok (.sneReg (fieldX w) (fieldY w) (fieldN w))
  | 0xA#4 => .ok (.ldI (fieldNnn w))
  | 0xB#4 => .ok (.jpV0 (fieldNnn w))
  | 0xC#4 => .ok (.rnd (fieldX w) (fieldKk w))
  | 0xD#4 => .ok (.drw (fieldX w) (fieldY w) (fieldN w))
  | 0xE#4 => decodeFamilyE w
  | 0xF#4 => decodeFamilyF w
  | _ => .error .undecodable

/-- The nibble of an instruction that the dispatch does not name, 0 where there is none (R58, R62). -/
def ignoredNibble (i : Instr) : Nibble :=
  match i with
  | .cls u | .ret u | .seReg _ _ u | .sneReg _ _ u => u
  | .sys _ | .jp _ | .call _ | .seImm _ _ | .sneImm _ _ | .ldImm _ _ | .addImm _ _ | .ldReg _ _ | .orReg _ _
  | .andReg _ _ | .xorReg _ _ | .addReg _ _ | .subReg _ _ | .shr _ _ | .subnReg _ _ | .shl _ _ | .ldI _
  | .jpV0 _ | .rnd _ _ | .drw _ _ _ | .skp _ | .sknp _ | .ldVxDt _ | .ldVxK _ | .ldDtVx _ | .ldStVx _
  | .addI _ | .ldF _ | .ldB _ | .dump _ | .load _ => 0x0#4

/-- The decoder under a policy: `ignore` takes every word `decode` takes; `refuse` refuses one whose ignored nibble
is not zero (R58, R62; D14). -/
def decodeUnder (p : IgnoredNibblePolicy) (w : Word) : Except DecodeRefusal Instr :=
  match decode w with
  | .error r => .error r
  | .ok i =>
    match p with
    | .ignore => .ok i
    | .refuse => if ignoredNibble i = 0x0#4 then .ok i else .error .ignoredNibble

/-- The word of two bytes, the byte at the lower address first and more significant (R33). -/
def wordOfBytes (hi lo : Byte) : Word := hi ++ lo

/-- The bytes of a word in the order of their addresses (R33). -/
def bytesOfWord (w : Word) : List Byte := [w.extractLsb' 8 8, w.extractLsb' 0 8]

/-- The decoder of a byte sequence under the default policy: the instruction at its head and the bytes after it
(DESIGN CHOICE, safe: notes/assumptions/19.md). -/
def decodeBytes (bs : List Byte) : Except DecodeRefusal (Instr × List Byte) :=
  match bs with
  | hi :: lo :: rest =>
    match decode (wordOfBytes hi lo) with
    | .ok i => .ok (i, rest)
    | .error r => .error r
  | _ => .error .truncated

/-- The word of format A: `FFFF nnnn nnnn nnnn` (R48). -/
def wordA (f : Nibble) (nnn : Addr) : Word := f ++ nnn

/-- The word of formats Z, XK and X: `FFFF xxxx kkkk kkkk` (R48). -/
def wordXK (f x : Nibble) (kk : Byte) : Word := f ++ x ++ kk

/-- The word of formats XY and XYN: `FFFF xxxx yyyy nnnn` (R48). -/
def wordXYN (f x y n : Nibble) : Word := f ++ x ++ y ++ n

/-- The encoder: the word of an instruction, by the patterns of R65. -/
def encode (i : Instr) : Word :=
  match i with
  | .cls u => wordXK 0x0#4 u 0xE0#8
  | .ret u => wordXK 0x0#4 u 0xEE#8
  | .sys nnn => wordA 0x0#4 nnn
  | .jp nnn => wordA 0x1#4 nnn
  | .call nnn => wordA 0x2#4 nnn
  | .seImm x kk => wordXK 0x3#4 x kk
  | .sneImm x kk => wordXK 0x4#4 x kk
  | .seReg x y u => wordXYN 0x5#4 x y u
  | .ldImm x kk => wordXK 0x6#4 x kk
  | .addImm x kk => wordXK 0x7#4 x kk
  | .ldReg x y => wordXYN 0x8#4 x y 0x0#4
  | .orReg x y => wordXYN 0x8#4 x y 0x1#4
  | .andReg x y => wordXYN 0x8#4 x y 0x2#4
  | .xorReg x y => wordXYN 0x8#4 x y 0x3#4
  | .addReg x y => wordXYN 0x8#4 x y 0x4#4
  | .subReg x y => wordXYN 0x8#4 x y 0x5#4
  | .shr x y => wordXYN 0x8#4 x y 0x6#4
  | .subnReg x y => wordXYN 0x8#4 x y 0x7#4
  | .shl x y => wordXYN 0x8#4 x y 0xE#4
  | .sneReg x y u => wordXYN 0x9#4 x y u
  | .ldI nnn => wordA 0xA#4 nnn
  | .jpV0 nnn => wordA 0xB#4 nnn
  | .rnd x kk => wordXK 0xC#4 x kk
  | .drw x y n => wordXYN 0xD#4 x y n
  | .skp x => wordXK 0xE#4 x 0x9E#8
  | .sknp x => wordXK 0xE#4 x 0xA1#8
  | .ldVxDt x => wordXK 0xF#4 x 0x07#8
  | .ldVxK x => wordXK 0xF#4 x 0x0A#8
  | .ldDtVx x => wordXK 0xF#4 x 0x15#8
  | .ldStVx x => wordXK 0xF#4 x 0x18#8
  | .addI x => wordXK 0xF#4 x 0x1E#8
  | .ldF x => wordXK 0xF#4 x 0x29#8
  | .ldB x => wordXK 0xF#4 x 0x33#8
  | .dump x => wordXK 0xF#4 x 0x55#8
  | .load x => wordXK 0xF#4 x 0x65#8

/-- The bytes of an instruction in the order of their addresses (R33). -/
def encodeBytes (i : Instr) : List Byte := bytesOfWord (encode i)

/-- The row's mnemonic in the opcode map R65. -/
def mnemonicOf (i : Instr) : String :=
  match i with
  | .cls _ => "CLS" | .ret _ => "RET" | .sys _ => "SYS nnn" | .jp _ => "JP nnn" | .call _ => "CALL nnn"
  | .seImm _ _ => "SE Vx, kk" | .sneImm _ _ => "SNE Vx, kk" | .seReg _ _ _ => "SE Vx, Vy"
  | .ldImm _ _ => "LD Vx, kk" | .addImm _ _ => "ADD Vx, kk" | .ldReg _ _ => "LD Vx, Vy"
  | .orReg _ _ => "OR Vx, Vy" | .andReg _ _ => "AND Vx, Vy" | .xorReg _ _ => "XOR Vx, Vy"
  | .addReg _ _ => "ADD Vx, Vy" | .subReg _ _ => "SUB Vx, Vy" | .shr _ _ => "SHR Vx"
  | .subnReg _ _ => "SUBN Vx, Vy" | .shl _ _ => "SHL Vx" | .sneReg _ _ _ => "SNE Vx, Vy"
  | .ldI _ => "LD I, nnn" | .jpV0 _ => "JP V0, nnn" | .rnd _ _ => "RND Vx, kk" | .drw _ _ _ => "DRW Vx, Vy, n"
  | .skp _ => "SKP Vx" | .sknp _ => "SKNP Vx" | .ldVxDt _ => "LD Vx, DT" | .ldVxK _ => "LD Vx, K"
  | .ldDtVx _ => "LD DT, Vx" | .ldStVx _ => "LD ST, Vx" | .addI _ => "ADD I, Vx" | .ldF _ => "LD F, Vx"
  | .ldB _ => "LD B, Vx" | .dump _ => "LD [I], Vx" | .load _ => "LD Vx, [I]"

/-- One row of the opcode map: a word is of the row when `w AND mask = pattern` (R65). -/
structure OpcodeRow where
  pattern : Word
  mask : Word
  mnemonic : String
  deriving DecidableEq, Repr

/-- The opcode map R65, transcribed row by row in the table's order. The decoder does not use it: it is the table
the decoder is compared with. -/
def opcodeMap : List OpcodeRow :=
  [⟨0x00E0, 0xF0FF, "CLS"⟩, ⟨0x00EE, 0xF0FF, "RET"⟩, ⟨0x0000, 0xF000, "SYS nnn"⟩, ⟨0x1000, 0xF000, "JP nnn"⟩,
   ⟨0x2000, 0xF000, "CALL nnn"⟩, ⟨0x3000, 0xF000, "SE Vx, kk"⟩, ⟨0x4000, 0xF000, "SNE Vx, kk"⟩,
   ⟨0x5000, 0xF000, "SE Vx, Vy"⟩, ⟨0x6000, 0xF000, "LD Vx, kk"⟩, ⟨0x7000, 0xF000, "ADD Vx, kk"⟩] ++
  [⟨0x8000, 0xF00F, "LD Vx, Vy"⟩, ⟨0x8001, 0xF00F, "OR Vx, Vy"⟩, ⟨0x8002, 0xF00F, "AND Vx, Vy"⟩,
   ⟨0x8003, 0xF00F, "XOR Vx, Vy"⟩, ⟨0x8004, 0xF00F, "ADD Vx, Vy"⟩, ⟨0x8005, 0xF00F, "SUB Vx, Vy"⟩,
   ⟨0x8006, 0xF00F, "SHR Vx"⟩, ⟨0x8007, 0xF00F, "SUBN Vx, Vy"⟩, ⟨0x800E, 0xF00F, "SHL Vx"⟩] ++
  [⟨0x9000, 0xF000, "SNE Vx, Vy"⟩, ⟨0xA000, 0xF000, "LD I, nnn"⟩, ⟨0xB000, 0xF000, "JP V0, nnn"⟩,
   ⟨0xC000, 0xF000, "RND Vx, kk"⟩, ⟨0xD000, 0xF000, "DRW Vx, Vy, n"⟩, ⟨0xE09E, 0xF0FF, "SKP Vx"⟩,
   ⟨0xE0A1, 0xF0FF, "SKNP Vx"⟩] ++
  [⟨0xF007, 0xF0FF, "LD Vx, DT"⟩, ⟨0xF00A, 0xF0FF, "LD Vx, K"⟩, ⟨0xF015, 0xF0FF, "LD DT, Vx"⟩,
   ⟨0xF018, 0xF0FF, "LD ST, Vx"⟩, ⟨0xF01E, 0xF0FF, "ADD I, Vx"⟩, ⟨0xF029, 0xF0FF, "LD F, Vx"⟩,
   ⟨0xF033, 0xF0FF, "LD B, Vx"⟩, ⟨0xF055, 0xF0FF, "LD [I], Vx"⟩, ⟨0xF065, 0xF0FF, "LD Vx, [I]"⟩]

/-- The first row of the opcode map that a word matches (R65: rows are tested top to bottom). -/
def matchingRow (w : Word) : Option OpcodeRow := opcodeMap.find? (fun r => w &&& r.mask == r.pattern)

/-- The word of an instruction whose bits are `w` numbered as the opcode table numbers them, of which the table
gives `nbits`; the bits above are zero. -/
def tableWord (nbits w : Nat) : Word := BitVec.ofNat 16 (w % 2 ^ nbits)

/-- The instruction the decoder reads from the bits of an opcode-table row, laid out as memory stores them (R33). -/
def decodeTableWord (nbits w : Nat) : Option Instr :=
  match decodeBytes (bytesOfWord (tableWord nbits w)) with
  | .ok (i, _) => some i
  | .error _ => none

end Sys2Proof
end

