-- ==== Sys2Proof/Machine/Font.lean ====
section
/-! DEFINITION. The default values of the unit's parameters (00_scope.md R7): the customary font of 10_state.md R21
and the policy `ignore`. -/

namespace Sys2Proof.Machine

/-- The default `FONT` (R21): glyph d is the five bytes at 5d to 5d+4, most significant bit leftmost.
The bytes are the spec's general knowledge (UNVERIFIED, unsafe: notes/assumptions/5.md). -/
def defaultFont : Font := #v[
  0xF0, 0x90, 0x90, 0x90, 0xF0,
  0x20, 0x60, 0x20, 0x20, 0x70,
  0xF0, 0x10, 0xF0, 0x80, 0xF0,
  0xF0, 0x10, 0xF0, 0x10, 0xF0,
  0x90, 0x90, 0xF0, 0x10, 0x10,
  0xF0, 0x80, 0xF0, 0x10, 0xF0,
  0xF0, 0x80, 0xF0, 0x90, 0xF0,
  0xF0, 0x10, 0x20, 0x40, 0x40,
  0xF0, 0x90, 0xF0, 0x90, 0xF0,
  0xF0, 0x90, 0xF0, 0x10, 0xF0,
  0xF0, 0x90, 0xF0, 0x90, 0x90,
  0xE0, 0x90, 0xE0, 0x90, 0xE0,
  0xF0, 0x80, 0x80, 0x80, 0xF0,
  0xE0, 0x90, 0x90, 0x90, 0xE0,
  0xF0, 0x80, 0xF0, 0x80, 0xF0,
  0xF0, 0x80, 0xF0, 0x80, 0x80]

/-- The default parameters of a unit (R7). -/
def defaultParams : Params := { font := defaultFont, policy := .ignore }

end Sys2Proof.Machine
end

