-- ==== Sys2Proof/Machine/State.lean ====
section
/-! DEFINITION. The complete architectural state (10_state.md R16 to R30) as plain data, the reasons a run can stop,
and the state after reset (70_reset_and_hazards.md R125). -/

namespace Sys2Proof.Machine

/-- The fatal faults and their codes 1 to 6 (60_exceptions.md R106). A fault is TAKEN: the transaction that raises it
answers a next state in phase Faulted (R113, `enterFault`), so no meaning and no step answers `Host.Outcome.fault`
(DEDUCED, safe: notes/assumptions/1.md).
Each is safe: the unit stops where the source program would have gone on in a way the source does not describe. -/
inductive Fault where
  /-- Code 1: raised by the host's `load` when the image runs past 0xFFF (R107, R126). Safe. -/
  | loadOversize
  /-- Code 2: raised by CALL with sixteen entries on the stack (R74, R108). Safe. -/
  | stackOverflow
  /-- Code 3: raised by RET with an empty stack (R72, R109). Safe. -/
  | stackUnderflow
  /-- Code 4: raised by SKP and SKNP when the key index is 16 or more (R80, R81, R110). Safe. -/
  | keyIndexRange
  /-- Code 5: raised by DRW, LD B, LD [I] and LD Vx, [I] on a data address above 0xFFF (R37, R111). Safe. -/
  | memoryRange
  /-- Code 6: raised by the fetch of a step with PC above 0xFFE (R53, R112). Safe. -/
  | fetchRange
  deriving DecidableEq, Repr

/-- Transactions that have no meaning (R58, R62, R127: "refused": no transition). None is an instruction's own. -/
inductive Refusal where
  /-- Raised by an arm of exec that has no meaning yet; no arm has that form in this model. Safe. -/
  | notModelled (mnemonic : String)
  /-- Raised by `step` in phase Fresh, before the host has loaded an image (R127). Safe. -/
  | stepWhenFresh
  /-- Raised by `step` in phase Faulted (R113, R127). Safe. -/
  | stepWhenFaulted
  /-- Raised by `load` in phase Loaded (R127). Safe. -/
  | loadWhenLoaded
  /-- Raised by `load` in phase Faulted (R113, R127). Safe. -/
  | loadWhenFaulted
  /-- Raised by a step under IGNORED_NIBBLE_POLICY = refuse that fetches a word whose ignored nibble is not zero
  (R58, R62). Safe. -/
  | ignoredNibble
  deriving DecidableEq, Repr

/-- PHASE together with FAULT, which holds a code exactly when the phase is Faulted (R28; DEDUCED, safe:
notes/assumptions/10.md). -/
inductive Phase where
  | fresh
  | loaded
  | faulted (code : Fault)
  deriving DecidableEq, Repr

/-- MEM as the cells that differ from the reset contents, addresses strictly rising (R20; `Memory.wf` in Ops; DEDUCED, safe:
notes/assumptions/11.md). -/
abbrev Memory := List Host.Cell

/-- The unit's state. The last four fields are the MODEL'S OWN: the parameters of the unit, the random byte of the
step in progress, the step payloads the host has ready, and the count of free values drawn. -/
structure State where
  /-- V0 to VF (R16). -/
  v : RegFile
  /-- The index register I (R18). -/
  idx : Word
  /-- The program counter (R19). -/
  pc : Word
  /-- Memory (R20). -/
  mem : Memory
  /-- The return stack (R22). -/
  stack : Stack
  /-- The stack pointer, a count of entries 0 to 16 (R23; DEDUCED, safe: notes/assumptions/9.md). -/
  sp : Fin 17
  /-- The delay timer (R24). -/
  dt : Byte
  /-- The sound timer (R24). -/
  st : Byte
  /-- The display (R25). -/
  disp : Display
  /-- The display-changed flag DCHG (R26). -/
  dchg : Bool
  /-- The input latch KEYS (R27). -/
  keys : KeyLatch
  /-- PHASE and FAULT (R28). -/
  phase : Phase
  /-- MODEL: the unit's parameters (R7; notes/assumptions/5.md, notes/assumptions/6.md). -/
  cfg : Params
  /-- MODEL: the input `rnd` of the step in progress (R32, R120). DESIGN CHOICE: notes/assumptions/4.md. -/
  rnd : Byte
  /-- MODEL: payloads of the host's next steps, the next one first; where none is listed, the payload is free.
  DESIGN CHOICE: notes/assumptions/3.md. -/
  inputs : List StepInput
  /-- MODEL: how many free values have been drawn. DESIGN CHOICE: notes/assumptions/3.md. -/
  draws : Nat
  deriving DecidableEq, Repr

/-- The state `new()` leaves in a unit with the given parameters (R125). The zeros of I, the stack entries, DCHG and
KEYS are the spec's decision D21 (UNVERIFIED, unsafe: notes/assumptions/12.md). -/
def State.resetWith (cfg : Params) : State :=
  { v := Vector.replicate 16 0x00, idx := 0x0000, pc := 0x0200, mem := [],
    stack := Vector.replicate 16 0x0000, sp := 0, dt := 0x00, st := 0x00,
    disp := Vector.replicate 32 0#64, dchg := false,
    keys := Vector.replicate 16 false, phase := .fresh,
    cfg := cfg, rnd := 0x00, inputs := [], draws := 0 }

/-- The unit right after reset, with the default parameters (R125, R7). -/
def State.reset : State := State.resetWith defaultParams

end Sys2Proof.Machine
end

