-- ==== Sys2Proof/Machine/Ops.lean ====
section
/-! DEFINITION. The named operations over the registers, the memory, the stack, the display, the keys, the timers and
the program counter, and TAKING A FAULT, each once; the meanings are written over them. -/

namespace Sys2Proof.Machine

/-! ## Registers -/

/-- The register VF, which doubles as the flag (R9, R17). -/
def vf : Nibble := 0xF#4

/-- Read `V[r]` (R9, R16). -/
def getV (s : State) (r : Nibble) : Byte := s.v[r.toNat]'(r.isLt)

/-- `V[r] <- b` (R9, R16). -/
def setV (s : State) (r : Nibble) (b : Byte) : State := { s with v := s.v.set r.toNat b r.isLt }

/-! ## The program counter -/

/-- `PC <- trunc_16(PC + 2)`: the advance of a fetch and of a skip (R53, R54, R71). -/
def advancePc (s : State) : State := { s with pc := s.pc + 2 }

/-- `PC <- trunc_16(PC - 2)`: the rewind of wait-for-key (R103). -/
def rewindPc (s : State) : State := { s with pc := s.pc - 2 }

/-- A jump: `PC <- target` (R71). -/
def jumpTo (s : State) (target : Word) : State := { s with pc := target }

/-- A skip: two more bytes when the condition holds (R71). -/
def skipIf (c : Bool) (s : State) : State := { s with pc := if c then s.pc + 2 else s.pc }

/-! ## Memory -/

/-- What an address no cell lists reads as: the reset contents, the font and then zeros (R20). -/
def Memory.unlisted (font : Font) (a : Nat) : Byte := if h : a < 80 then font[a] else 0x00

/-- The byte a memory lists for an address, if any. -/
def Memory.lookup : Memory → Nat → Option Byte
  | [], _ => none
  | (k, b) :: m, a => if k = a then some b else Memory.lookup m a

/-- Put a cell before the first cell of a higher address. -/
def Memory.insert : Memory → Nat → Byte → Memory
  | [], a, b => [(a, b)]
  | (k, c) :: m, a, b => if a < k then (a, b) :: (k, c) :: m else (k, c) :: Memory.insert m a b

/-- List nothing for an address. -/
def Memory.forget (m : Memory) (a : Nat) : Memory := m.filter (fun c => c.1 != a)

/-- The byte at an address (R20, R38). -/
def Memory.read (font : Font) (m : Memory) (a : Nat) : Byte :=
  (Memory.lookup m a).getD (Memory.unlisted font a)

/-- The memory with one byte changed (R38); a byte equal to what an unlisted address reads as is not listed. -/
def Memory.write (font : Font) (m : Memory) (a : Nat) (b : Byte) : Memory :=
  if b = Memory.unlisted font a then Memory.forget m a else Memory.insert (Memory.forget m a) a b

/-- Consecutive bytes written at ascending addresses, as `load` writes its image (R126). -/
def Memory.writeAll (font : Font) (m : Memory) (a : Nat) : List Byte → Memory
  | [] => m
  | b :: bs => Memory.writeAll font (Memory.write font m a b) (a + 1) bs

/-- The canonical form: addresses strictly rising, all of the 4096-byte space (R20), and no cell equal to what an
unlisted address reads as. -/
abbrev Memory.wf (font : Font) (m : Memory) : Prop :=
  m.Pairwise (fun c d => c.1 < d.1) ∧ ∀ c ∈ m, c.1 ≤ 0xFFF ∧ c.2 ≠ Memory.unlisted font c.1

/-- The memory, in canonical form, in which every address `a` up to 0xFFF holds `f a`. -/
@[irreducible] def Memory.ofBytes (font : Font) (f : Nat → Byte) : Memory :=
  (List.range 0x1000).filterMap (fun a => if f a = Memory.unlisted font a then none else some (a, f a))

/-- `MEM[a]` of a state. -/
def memByte (s : State) (a : Nat) : Byte := Memory.read s.cfg.font s.mem a

/-- `MemRead(a, 1)`: addresses are unbounded numbers, and one above 0xFFF raises MEMORY_RANGE (R11, R37). -/
def memRead (s : State) (a : Nat) : Except Fault Byte :=
  if a ≤ 0xFFF then .ok (memByte s a) else .error .memoryRange

/-- `MemWrite(a, 1, b)`, with the same range check; no address is protected (R11, R37, R41). -/
def memWrite (s : State) (a : Nat) (b : Byte) : Except Fault State :=
  if a ≤ 0xFFF then .ok { s with mem := Memory.write s.cfg.font s.mem a b } else .error .memoryRange

/-! ## The stack -/

/-- `STACK[SP] <- PC; SP <- SP + 1`, or STACK_OVERFLOW with sixteen entries on the stack (R74, R108). -/
def pushPc (s : State) : Except Fault State :=
  if h : s.sp.val < 16 then
    .ok { s with stack := s.stack.set s.sp.val s.pc h, sp := ⟨s.sp.val + 1, by omega⟩ }
  else .error .stackOverflow

/-- `SP <- SP - 1; PC <- STACK[SP]`, or STACK_UNDERFLOW with an empty stack; the popped entry keeps its value
(R72, R109). -/
def popPc (s : State) : Except Fault State :=
  if h : 0 < s.sp.val then
    .ok { s with sp := ⟨s.sp.val - 1, by omega⟩, pc := s.stack[s.sp.val - 1]'(by omega) }
  else .error .stackUnderflow

/-! ## The display -/

/-- The cell `DISP[X][Y]` (R25). -/
def pixel (d : Display) (X : Fin 64) (Y : Fin 32) : Bool := d[Y.val].getLsbD X.val

/-- A display row with the cell of column X set to `b`. -/
def setCell (row : BitVec 64) (X : Fin 64) (b : Bool) : BitVec 64 :=
  if b then row ||| BitVec.twoPow 64 X.val else row &&& ~~~ (BitVec.twoPow 64 X.val)

/-- `DISP[X][Y] <- b` (R25). -/
def setPixel (d : Display) (X : Fin 64) (Y : Fin 32) (b : Bool) : Display :=
  d.set Y.val (setCell d[Y.val] X b)

/-- The display with every cell 0 (R25, R69). -/
def blankDisplay : Display := Vector.replicate 32 0#64

/-! ## The keys -/

/-- Whether key `k` is pressed in the latch (R9, R27). -/
def keyDown (s : State) (k : Fin 16) : Bool := s.keys[k.val]

/-- The latch of a key vector: bit k of the port is key k (R32, R51). -/
def latchOfPort (keys : BitVec 16) : KeyLatch :=
  #v[keys.getLsbD 0, keys.getLsbD 1, keys.getLsbD 2, keys.getLsbD 3,
     keys.getLsbD 4, keys.getLsbD 5, keys.getLsbD 6, keys.getLsbD 7,
     keys.getLsbD 8, keys.getLsbD 9, keys.getLsbD 10, keys.getLsbD 11,
     keys.getLsbD 12, keys.getLsbD 13, keys.getLsbD 14, keys.getLsbD 15]

/-- The highest-indexed pressed key, if any: the scan goes up and a later key overwrites an earlier one (R103). -/
def highestKey (s : State) : Option (Fin 16) :=
  (List.finRange 16).foldl (fun found k => if keyDown s k then some k else found) none

/-! ## The timers -/

/-- One decrement, saturating at 0 (R119). -/
def decrement (t : Byte) : Byte := if t = 0x00#8 then 0x00#8 else t - 1

/-- `TickTimers()`: each timer on its own (R119). -/
def tickTimers (s : State) : State := { s with dt := decrement s.dt, st := decrement s.st }

/-! ## Faults -/

/-- Taking a fault, the one operation of every transaction that raises one (R113): PHASE becomes Faulted with the
code, and every other state element of the unit becomes unspecified, a free value drawn anew. -/
def enterFault (code : Fault) (s : State) : State :=
  { s with
    v := (Config.afterFault s.draws).v
    idx := (Config.afterFault s.draws).idx
    pc := (Config.afterFault s.draws).pc
    mem := Memory.ofBytes s.cfg.font (Config.afterFaultByte s.draws)
    stack := (Config.afterFault s.draws).stack
    sp := (Config.afterFault s.draws).sp
    dt := (Config.afterFault s.draws).dt
    st := (Config.afterFault s.draws).st
    disp := (Config.afterFault s.draws).disp
    dchg := (Config.afterFault s.draws).dchg
    keys := (Config.afterFault s.draws).keys
    phase := .faulted code
    draws := s.draws + 1 }

/-- The state a transaction ends in: its pseudocode's last state, or the fault it raised, taken (R11, R113). -/
def settleState (s : State) (r : Except Fault State) : State :=
  match r with
  | .ok t => t
  | .error code => enterFault code s

/-- The outcome of a meaning that may raise a fault. -/
def settle (s : State) (r : Except Fault State) : Host.Outcome State Fault Refusal := .next (settleState s r)

/-- Whether the phase is Faulted (R28). -/
def isFaulted (s : State) : Bool :=
  match s.phase with
  | .faulted _ => true
  | .fresh | .loaded => false

end Sys2Proof.Machine
end

