-- ==== Sys2Proof/Machine/Operands.lean ====
section
/-! DEFINITION. The operand forms of 30_encoding.md R49 and of the instruction rules: zero extension of `nnn` and of a
register, the base address `I`, the key index, the cells of a sprite, and the decimal digits of LD B. No field is sign-extended or scaled. -/

namespace Sys2Proof.Machine

/-- `zext_16(nnn)` (R8, R49). -/
def addrWord (nnn : Addr) : Word := nnn.zeroExtend 16

/-- `zext_16(V[r])` (R8, R79, R97, R98). -/
def regWord (s : State) (r : Nibble) : Word := (getV s r).zeroExtend 16

/-- The address `I + k` of the k-th byte a memory instruction reaches, never truncated (R11, R36, R37). -/
def indexAddr (s : State) (k : Nat) : Nat := s.idx.toNat + k

/-- The register index of loop counter `i` in `for i in 0..x` (R100, R101). -/
def loopReg (i : Nat) : Nibble := BitVec.ofNat 4 i

/-- `V[x]` as a key index, or KEY_INDEX_RANGE when it is 16 or more (R80, R81, R110). -/
def keyIndex (s : State) (x : Nibble) : Except Fault (Fin 16) :=
  if h : (getV s x).toNat < 16 then .ok ⟨(getV s x).toNat, h⟩ else .error .keyIndexRange

/-- The column of the cell under sprite column `col` of a sprite at `x0`: it wraps modulo 64 (R70). -/
def cellX (x0 : Byte) (col : Nat) : Fin 64 := Fin.ofNat 64 (x0.toNat + col)

/-- The row of the cell under sprite row `row` of a sprite at `y0`: it wraps modulo 32 (R70). -/
def cellY (y0 : Byte) (row : Nat) : Fin 32 := Fin.ofNat 32 (y0.toNat + row)

/-- The hundreds digit, 0 to 2 (R99). -/
def hundreds (b : Byte) : Byte := BitVec.ofNat 8 (b.toNat / 100)

/-- The tens digit, 0 to 9 (R99). -/
def tens (b : Byte) : Byte := BitVec.ofNat 8 (b.toNat / 10 % 10)

/-- The ones digit, 0 to 9 (R99). -/
def ones (b : Byte) : Byte := BitVec.ofNat 8 (b.toNat % 10)

end Sys2Proof.Machine
end

