-- ==== Sys2Proof/Machine/Flags.lean ====
section
/-! DEFINITION. Every flag computation (R17, R82): carry, the strict no-borrow flag and the bit shifted out; the flag is
a 0 or 1 written to VF after the result, so that with `x = 0xF` the flag is what VF holds (R12). -/

namespace Sys2Proof.Machine

/-- A flag as the byte VF receives (R17). -/
def flagByte (c : Bool) : Byte := if c then 0x01#8 else 0x00#8

/-- The carry of ADD Vx, Vy: the unsigned sum exceeds 255 (R82, R89). -/
def carryFlag (a b : Byte) : Bool := decide (255 < a.toNat + b.toNat)

/-- The no-borrow flag: the minuend is STRICTLY greater than the subtrahend (R82, R90, R92). -/
def noBorrowFlag (minuend subtrahend : Byte) : Bool := decide (subtrahend.toNat < minuend.toNat)

/-- The bit SHR shifts out, bit 0 (R91). -/
def lowBit (a : Byte) : Bool := a.getLsbD 0

/-- The bit SHL shifts out, bit 7 (R93). -/
def highBit (a : Byte) : Bool := a.getLsbD 7

/-- A result to `V[x]` and then the flag to VF, in that order (R12, R82). -/
def setResultAndFlag (s : State) (x : Nibble) (result : Byte) (flag : Bool) : State :=
  setV (setV s x result) vf (flagByte flag)

end Sys2Proof.Machine
end

