-- ==== Sys2Proof/Machine/Arithmetic.lean ====
section
/-! DEFINITION. Register loads, arithmetic, logic and random (43_arithmetic.md). All arithmetic is unsigned and wraps
modulo 256 (R82). -/

namespace Sys2Proof.Machine

/-- LD Vx, kk (R83). -/
def execLdImm (x : Nibble) (kk : Byte) (s : State) : Host.Outcome State Fault Refusal := .next (setV s x kk)

/-- ADD Vx, kk (R84): no flag. -/
def execAddImm (x : Nibble) (kk : Byte) (s : State) : Host.Outcome State Fault Refusal :=
  .next (setV s x (getV s x + kk))

/-- LD Vx, Vy (R85). -/
def execLdReg (x y : Nibble) (s : State) : Host.Outcome State Fault Refusal := .next (setV s x (getV s y))

/-- OR Vx, Vy (R86): no flag. -/
def execOrReg (x y : Nibble) (s : State) : Host.Outcome State Fault Refusal :=
  .next (setV s x (getV s x ||| getV s y))

/-- AND Vx, Vy (R87): no flag. -/
def execAndReg (x y : Nibble) (s : State) : Host.Outcome State Fault Refusal :=
  .next (setV s x (getV s x &&& getV s y))

/-- XOR Vx, Vy (R88): no flag. -/
def execXorReg (x y : Nibble) (s : State) : Host.Outcome State Fault Refusal :=
  .next (setV s x (getV s x ^^^ getV s y))

/-- ADD Vx, Vy (R89): VF <- carry. -/
def execAddReg (x y : Nibble) (s : State) : Host.Outcome State Fault Refusal :=
  .next (setResultAndFlag s x (getV s x + getV s y) (carryFlag (getV s x) (getV s y)))

/-- SUB Vx, Vy (R90): Vx - Vy, VF <- no borrow, strictly. -/
def execSubReg (x y : Nibble) (s : State) : Host.Outcome State Fault Refusal :=
  .next (setResultAndFlag s x (getV s x - getV s y) (noBorrowFlag (getV s x) (getV s y)))

/-- SHR Vx (R91): the register shifted is Vx, never Vy; VF <- the old bit 0. -/
def execShr (x _y : Nibble) (s : State) : Host.Outcome State Fault Refusal :=
  .next (setResultAndFlag s x (getV s x >>> 1) (lowBit (getV s x)))

/-- SUBN Vx, Vy (R92): Vy - Vx, VF <- no borrow, strictly. -/
def execSubnReg (x y : Nibble) (s : State) : Host.Outcome State Fault Refusal :=
  .next (setResultAndFlag s x (getV s y - getV s x) (noBorrowFlag (getV s y) (getV s x)))

/-- SHL Vx (R93): the register shifted is Vx, never Vy; VF <- the old bit 7. -/
def execShl (x _y : Nibble) (s : State) : Host.Outcome State Fault Refusal :=
  .next (setResultAndFlag s x (getV s x <<< 1) (highBit (getV s x)))

/-- RND Vx, kk (R95): `Rand8()` is the step's random byte (R11, R120). -/
def execRnd (x : Nibble) (kk : Byte) (s : State) : Host.Outcome State Fault Refusal :=
  .next (setV s x (s.rnd &&& kk))

end Sys2Proof.Machine
end

