-- ==== Sys2Proof/Machine/ControlFlow.lean ====
section
/-! DEFINITION. Control transfer, skips and SYS (42_control_flow.md, 30_encoding.md R64). `PC` already holds the
instruction's address plus 2 (R13, R53). -/

namespace Sys2Proof.Machine

/-- RET (R72). The ignored nibble has no effect (R58). -/
def execRet (_u : Nibble) (s : State) : Host.Outcome State Fault Refusal := settle s (popPc s)

/-- SYS nnn (R64): the no-op of an undecodable word; `nnn` is ignored. -/
def execSys (_nnn : Addr) (s : State) : Host.Outcome State Fault Refusal := .next s

/-- JP nnn (R73). -/
def execJp (nnn : Addr) (s : State) : Host.Outcome State Fault Refusal := .next (jumpTo s (addrWord nnn))

/-- CALL nnn (R74): the advanced PC is pushed. -/
def execCall (nnn : Addr) (s : State) : Host.Outcome State Fault Refusal :=
  settle s do
    let t ← pushPc s
    pure (jumpTo t (addrWord nnn))

/-- SE Vx, kk (R75). -/
def execSeImm (x : Nibble) (kk : Byte) (s : State) : Host.Outcome State Fault Refusal :=
  .next (skipIf (getV s x == kk) s)

/-- SNE Vx, kk (R76). -/
def execSneImm (x : Nibble) (kk : Byte) (s : State) : Host.Outcome State Fault Refusal :=
  .next (skipIf (getV s x != kk) s)

/-- SE Vx, Vy (R77). The ignored nibble has no effect (R62). -/
def execSeReg (x y _u : Nibble) (s : State) : Host.Outcome State Fault Refusal :=
  .next (skipIf (getV s x == getV s y) s)

/-- SNE Vx, Vy (R78). The ignored nibble has no effect (R62). -/
def execSneReg (x y _u : Nibble) (s : State) : Host.Outcome State Fault Refusal :=
  .next (skipIf (getV s x != getV s y) s)

/-- JP V0, nnn (R79): always V0; the sum is not reduced modulo 4096. -/
def execJpV0 (nnn : Addr) (s : State) : Host.Outcome State Fault Refusal :=
  .next (jumpTo s (regWord s 0x0#4 + addrWord nnn))

/-- SKP Vx (R80). -/
def execSkp (x : Nibble) (s : State) : Host.Outcome State Fault Refusal :=
  settle s do
    let k ← keyIndex s x
    pure (skipIf (keyDown s k) s)

/-- SKNP Vx (R81). -/
def execSknp (x : Nibble) (s : State) : Host.Outcome State Fault Refusal :=
  settle s do
    let k ← keyIndex s x
    pure (skipIf (!keyDown s k) s)

end Sys2Proof.Machine
end

