-- ==== Sys2Proof/Machine/Display.lean ====
section
/-! DEFINITION. The display instructions (41_display.md). -/

namespace Sys2Proof.Machine

/-- CLS (R69): every cell 0; the display-changed flag is not set. The ignored nibble has no effect (R58). -/
def execCls (_u : Nibble) (s : State) : Host.Outcome State Fault Refusal := .next { s with disp := blankDisplay }

/-- The display and the collision flag after one sprite bit (R70): each coordinate wraps on its own axis, the bit is
XORed into the cell, and a 1 over a lit cell is a collision. -/
def drawBit (x0 y0 : Byte) (row col : Nat) (bit : Bool) (acc : Display × Bool) : Display × Bool :=
  let X := cellX x0 col
  let Y := cellY y0 row
  (setPixel acc.1 X Y (pixel acc.1 X Y ^^ bit), acc.2 || (bit && pixel acc.1 X Y))

/-- One row of a sprite: eight columns, the most significant bit leftmost (R70). -/
def drawRow (x0 y0 : Byte) (row : Nat) (b : Byte) (acc : Display × Bool) : Display × Bool :=
  (List.range 8).foldl (fun acc col => drawBit x0 y0 row col (b.getLsbD (7 - col)) acc) acc

/-- The rows 0 to n-1 of the sprite at `I`, each byte read as it is drawn (R70, R36). -/
def drawRows (s : State) (x0 y0 : Byte) (n : Nat) : Except Fault (Display × Bool) :=
  (List.range n).foldlM
    (fun acc row => do
      let b ← memRead s (indexAddr s row)
      pure (drawRow x0 y0 row b acc))
    (s.disp, false)

/-- DRW Vx, Vy, n (R70): the coordinates are read before VF is written; VF receives the collision flag and the
display-changed flag is set, whatever was drawn. -/
def execDrw (x y n : Nibble) (s : State) : Host.Outcome State Fault Refusal :=
  settle s do
    let drawn ← drawRows s (getV s x) (getV s y) n.toNat
    pure { setV { s with disp := drawn.1 } vf (flagByte drawn.2) with dchg := true }

end Sys2Proof.Machine
end

