-- ==== Sys2Proof/Machine/IndexMemory.lean ====
section
/-! DEFINITION. The index register and the memory transfers (44_index_memory.md). `I` is unchanged by the transfers
(D19), and they raise MEMORY_RANGE at the first address above 0xFFF (R37). -/

namespace Sys2Proof.Machine

/-- LD I, nnn (R96). -/
def execLdI (nnn : Addr) (s : State) : Host.Outcome State Fault Refusal := .next { s with idx := addrWord nnn }

/-- ADD I, Vx (R97): modulo 65536, no flag. -/
def execAddI (x : Nibble) (s : State) : Host.Outcome State Fault Refusal :=
  .next { s with idx := s.idx + regWord s x }

/-- LD F, Vx (R98): the whole of Vx times 5, not masked to a nibble. -/
def execLdF (x : Nibble) (s : State) : Host.Outcome State Fault Refusal :=
  .next { s with idx := regWord s x * 5 }

/-- LD B, Vx (R99): three decimal digits at I, I+1, I+2. -/
def execLdB (x : Nibble) (s : State) : Host.Outcome State Fault Refusal :=
  settle s do
    let s1 ← memWrite s (indexAddr s 0) (hundreds (getV s x))
    let s2 ← memWrite s1 (indexAddr s 1) (tens (getV s x))
    memWrite s2 (indexAddr s 2) (ones (getV s x))

/-- LD [I], Vx (R100): V0 to Vx, inclusive, to memory at I. -/
def execDump (x : Nibble) (s : State) : Host.Outcome State Fault Refusal :=
  settle s
    ((List.range (x.toNat + 1)).foldlM (fun t i => memWrite t (indexAddr s i) (getV s (loopReg i))) s)

/-- LD Vx, [I] (R101): V0 to Vx, inclusive, from memory at I. -/
def execLoad (x : Nibble) (s : State) : Host.Outcome State Fault Refusal :=
  settle s
    ((List.range (x.toNat + 1)).foldlM
      (fun t i => do
        let b ← memRead s (indexAddr s i)
        pure (setV t (loopReg i) b))
      s)

end Sys2Proof.Machine
end

