-- ==== Sys2Proof/Machine/TimersInput.lean ====
section
/-! DEFINITION. The timer and key-wait instructions (45_timers_input.md). The step's own decrement runs after them
(R56, R132). -/

namespace Sys2Proof.Machine

/-- LD Vx, DT (R102): DT before this step's decrement. -/
def execLdVxDt (x : Nibble) (s : State) : Host.Outcome State Fault Refusal := .next (setV s x s.dt)

/-- LD Vx, K (R103): the highest pressed key, or PC back to this instruction when no key is pressed. -/
def execLdVxK (x : Nibble) (s : State) : Host.Outcome State Fault Refusal :=
  .next (match highestKey s with
    | some k => setV s x (BitVec.ofNat 8 k.val)
    | none => rewindPc s)

/-- LD DT, Vx (R104). -/
def execLdDtVx (x : Nibble) (s : State) : Host.Outcome State Fault Refusal := .next { s with dt := getV s x }

/-- LD ST, Vx (R105). -/
def execLdStVx (x : Nibble) (s : State) : Host.Outcome State Fault Refusal := .next { s with st := getV s x }

end Sys2Proof.Machine
end

