-- ==== Sys2Proof/Machine/Cycle.lean ====
section
/-! DEFINITION. The step transaction `step(keys, rnd)` (30_encoding.md R50 to R56): what stands before and after the
execution of the decoded instruction, and where a step's payload comes from. -/

namespace Sys2Proof.Machine

/-- Steps 1 and 2: latch the keys, take the random byte, clear the display-changed flag (R51, R52, R120). -/
def beginStep (keys : BitVec 16) (rnd : Byte) (s : State) : State :=
  { s with keys := latchOfPort keys, rnd := rnd, dchg := false }

/-- The word at PC: two bytes, the high byte at the lower address (R33, R53). -/
def wordAtPc (s : State) : Word := wordOfBytes (memByte s s.pc.toNat) (memByte s (s.pc.toNat + 1))

/-- Step 3, `Fetch()`: FETCH_RANGE when PC is above 0xFFE, else the word at PC, with PC advanced by 2 (R53). -/
def fetch (s : State) : Except Fault (Word × State) :=
  if s.pc.toNat ≤ 0xFFE then .ok (wordAtPc s, advancePc s) else .error .fetchRange

/-- Step 6, after a step that did not fault: the timers tick (R56, R113). -/
def endStep (s : State) : State := if isFaulted s then s else tickTimers s

/-- What the rest of a step makes of the execution's outcome. -/
def finishStep (r : Host.Outcome State Fault Refusal) : Host.Outcome State Fault Refusal :=
  match r with
  | .next t => .next (endStep t)
  | .fault f => .fault f
  | .refused q => .refused q

/-- Steps 4 and 5 on a fetched word: an undecodable word changes nothing (R63; notes/assumptions/15.md), a word the policy refuses has no
transition (R58, R62), and a decoded instruction is executed (R55). -/
def dispatchWord (w : Word) (s : State) : Host.Outcome State Fault Refusal :=
  match decodeUnder s.cfg.policy w with
  | .ok i => exec i s
  | .error .ignoredNibble => .refused .ignoredNibble
  | .error .undecodable => .next s
  | .error .truncated => .next s

/-- The step of a loaded unit: the six lines of R50, and a fault at any line ends it there. -/
def runStep (keys : BitVec 16) (rnd : Byte) (s : State) : Host.Outcome State Fault Refusal :=
  match fetch (beginStep keys rnd s) with
  | .error code => .next (enterFault code (beginStep keys rnd s))
  | .ok (w, t) => finishStep (dispatchWord w t)

/-- `step(keys, rnd)`: legal only in phase Loaded (R50, R127). -/
def stepWith (keys : BitVec 16) (rnd : Byte) (s : State) : Host.Outcome State Fault Refusal :=
  match s.phase with
  | .fresh => .refused .stepWhenFresh
  | .faulted _ => .refused .stepWhenFaulted
  | .loaded => runStep keys rnd s

/-- The payload of the host's next step: the one State lists first, or a free one (R32, R120, R128). -/
def nextInput (s : State) : StepInput :=
  match s.inputs with
  | i :: _ => i
  | [] => Config.hostInput s.draws

/-- The state with the next payload taken. -/
def takeInput (s : State) : State :=
  match s.inputs with
  | _ :: rest => { s with inputs := rest }
  | [] => { s with draws := s.draws + 1 }

/-- The byte pair of a word placed where the next step fetches, in a unit that may step: the phase becomes Loaded,
which stands for the host's `load` (R126, R127), and a PC no fetch can use becomes the entry point (R40).
DESIGN CHOICE, safe: notes/assumptions/7.md, notes/assumptions/8.md. -/
def placeWord (w : Word) (s : State) : State :=
  let pc := if s.pc.toNat ≤ 0xFFE then s.pc else 0x0200#16
  { s with phase := .loaded, pc := pc, mem := Memory.writeAll s.cfg.font s.mem pc.toNat (bytesOfWord w) }

end Sys2Proof.Machine
end

