-- ==== Sys2Proof/Machine/Step.lean ====
section
/-! DEFINITION. One step of the machine: the host's next `step(keys, rnd)` transaction (30_encoding.md R50). -/

namespace Sys2Proof.Machine

/-- One step: the transaction `step(keys, rnd)` with the host's next payload. -/
def step (s : State) : Host.Outcome State Fault Refusal :=
  stepWith (nextInput s).keys (nextInput s).rnd (takeInput s)

/-- `s` with the instruction of an opcode-table word stored where `step` fetches next. -/
def State.withFetchWord (s : State) (nbits w : Nat) : State := placeWord (tableWord nbits w) s

end Sys2Proof.Machine
end

