-- ==== Sys2Proof/Machine/Transactions.lean ====
section
/-! DEFINITION. The host interface (10_state.md R32, 70_reset_and_hazards.md R125 to R127): the three transactions, in
every phase, and the outputs. -/

namespace Sys2Proof.Machine

/-- The host's transactions (R32). -/
inductive Transaction where
  /-- Reset. -/
  | new
  /-- Install a program image at 0x200. -/
  | load (bytes : List Byte)
  /-- Execute one step. -/
  | step (keys : BitVec 16) (rnd : Byte)
  deriving DecidableEq, Repr

/-- `new()`: the reset state, in any phase; earlier state is discarded, a fault included (R125). The unit's parameters
stay, and so do the host's own payloads and the count of draws, which are no state of the unit
(DESIGN CHOICE, safe: notes/assumptions/17.md). -/
def newUnit (s : State) : State :=
  { State.resetWith s.cfg with inputs := s.inputs, draws := s.draws }

/-- The first address of the program area (R40). -/
def programBase : Nat := 0x200

/-- `load(bytes)` of a Fresh unit (R126): LOAD_OVERSIZE before any byte is written, or the image in memory. -/
def loadImage (bytes : List Byte) (s : State) : Except Fault State :=
  if programBase + bytes.length ≤ 0x1000 then
    .ok { s with mem := Memory.writeAll s.cfg.font s.mem programBase bytes, phase := .loaded }
  else .error .loadOversize

/-- `load(bytes)`: legal only in phase Fresh (R126, R127). -/
def loadUnit (bytes : List Byte) (s : State) : Host.Outcome State Fault Refusal :=
  match s.phase with
  | .fresh => settle s (loadImage bytes s)
  | .loaded => .refused .loadWhenLoaded
  | .faulted _ => .refused .loadWhenFaulted

/-- One transaction of the host (R127). -/
def transact (t : Transaction) (s : State) : Host.Outcome State Fault Refusal :=
  match t with
  | .new => .next (newUnit s)
  | .load bytes => loadUnit bytes s
  | .step keys rnd => stepWith keys rnd s

/-- A host's transactions in order, up to the first that is refused (R127). -/
def runHost : List Transaction → State → Host.Outcome State Fault Refusal
  | [], s => .next s
  | t :: ts, s =>
    match transact t s with
    | .next s' => runHost ts s'
    | .fault f => .fault f
    | .refused q => .refused q

/-- The output `display` (R32). -/
def displayOut (s : State) : Display := s.disp

/-- The output `display_changed` (R26, R32). -/
def displayChanged (s : State) : Bool := s.dchg

/-- The output `sound_active` (R24, R32). -/
def soundActive (s : State) : Bool := s.st != 0x00#8

/-- The number of a fault (R106). -/
def faultCode (f : Fault) : Nat :=
  match f with
  | .loadOversize => 1
  | .stackOverflow => 2
  | .stackUnderflow => 3
  | .keyIndexRange => 4
  | .memoryRange => 5
  | .fetchRange => 6

/-- The output `fault`: the code, 0 when the phase is not Faulted (R32, R106). -/
def faultOut (s : State) : Nat :=
  match s.phase with
  | .faulted f => faultCode f
  | .fresh | .loaded => 0

end Sys2Proof.Machine
end

