-- ==== Sys2Proof/Safety.lean ====
section
/-! DEFINITION. The terms claims are stated in: the invariant of the unit, the rules of the spec that classify
instructions and words, the sprite of a draw as a closed form, and the frames. Nothing here is called by the step. -/

namespace Sys2Proof.Machine

/-! ## The invariant -/

/-- A bound no PC leaves (R54: a jump with offset gives at most 0x10FE, everything else less). -/
abbrev PcInReach (s : State) : Prop := s.pc.toNat ≤ 0x10FE

/-- Every return address on the stack is at most 0x1000 (R54). -/
abbrev ReturnsInReach (s : State) : Prop := ∀ k : Fin 16, k.val < s.sp.val → s.stack[k.val].toNat ≤ 0x1000

/-- The invariant: memory is canonical, and, unless the unit is faulted (its state is then unspecified, R113), PC and
the return addresses stay in reach. -/
abbrev UnitInv (s : State) : Prop :=
  Memory.wf s.cfg.font s.mem ∧ (isFaulted s = false → PcInReach s ∧ ReturnsInReach s)

/-! ## Frames -/

/-- Every byte of memory reads as before. -/
abbrev SameBytes (s t : State) : Prop := ∀ a : Nat, memByte t a = memByte s a

/-- Nothing changed but the registers V. -/
abbrev OnlyV (s t : State) : Prop := t = { s with v := t.v } ∧ SameBytes s t

/-- Nothing changed but PC. -/
abbrev OnlyPc (s t : State) : Prop := t = { s with pc := t.pc } ∧ SameBytes s t

/-- Nothing changed but I. -/
abbrev OnlyIdx (s t : State) : Prop := t = { s with idx := t.idx } ∧ SameBytes s t

/-- Nothing changed but memory. -/
abbrev OnlyMem (s t : State) : Prop := t = { s with mem := t.mem }

/-- Every register but `r` is as before. -/
abbrev OtherRegs (s t : State) (r : Nibble) : Prop := ∀ q : Nibble, q ≠ r → getV t q = getV s q

/-- Every register but `r` and VF is as before. -/
abbrev OtherRegsButVf (s t : State) (r : Nibble) : Prop := ∀ q : Nibble, q ≠ r → q ≠ vf → getV t q = getV s q

/-! ## Classes of instructions and words -/

/-- The words R63 lists as undecodable, by family and sub-opcode (SYS, the remainder of family 0x0, among them). -/
def undecodableWord (w : Word) : Bool :=
  (fieldFamily w == 0x0#4 && !([0xE0#8, 0xEE#8].contains (fieldKk w)))
  || (fieldFamily w == 0x8#4 && [0x8#4, 0x9#4, 0xA#4, 0xB#4, 0xC#4, 0xD#4, 0xF#4].contains (fieldN w))
  || (fieldFamily w == 0xE#4 && !([0x9E#8, 0xA1#8].contains (fieldKk w)))
  || (fieldFamily w == 0xF#4 &&
      !([0x07#8, 0x0A#8, 0x15#8, 0x18#8, 0x1E#8, 0x29#8, 0x33#8, 0x55#8, 0x65#8].contains (fieldKk w)))

/-- The instructions that write VF as a flag (R17). -/
def writesFlag (i : Instr) : Bool :=
  match i with
  | .addReg _ _ | .subReg _ _ | .shr _ _ | .subnReg _ _ | .shl _ _ | .drw _ _ _ => true
  | .cls _ | .ret _ | .sys _ | .jp _ | .call _ | .seImm _ _ | .sneImm _ _ | .seReg _ _ _ | .ldImm _ _
  | .addImm _ _ | .ldReg _ _ | .orReg _ _ | .andReg _ _ | .xorReg _ _ | .sneReg _ _ _ | .ldI _ | .jpV0 _
  | .rnd _ _ | .skp _ | .sknp _ | .ldVxDt _ | .ldVxK _ | .ldDtVx _ | .ldStVx _ | .addI _ | .ldF _ | .ldB _
  | .dump _ | .load _ => false

/-- The register an instruction names as its destination; for the register load the LAST of them (R101). -/
def destination (i : Instr) : Option Nibble :=
  match i with
  | .ldImm x _ | .addImm x _ | .ldReg x _ | .orReg x _ | .andReg x _ | .xorReg x _ | .addReg x _ | .subReg x _
  | .shr x _ | .subnReg x _ | .shl x _ | .rnd x _ | .ldVxDt x | .ldVxK x | .load x => some x
  | .cls _ | .ret _ | .sys _ | .jp _ | .call _ | .seImm _ _ | .sneImm _ _ | .seReg _ _ _ | .sneReg _ _ _
  | .ldI _ | .jpV0 _ | .drw _ _ _ | .skp _ | .sknp _ | .ldDtVx _ | .ldStVx _ | .addI _ | .ldF _ | .ldB _
  | .dump _ => none

/-- The one kind of fault an instruction can raise (R114). -/
def faultKind (i : Instr) : Option Fault :=
  match i with
  | .call _ => some .stackOverflow
  | .ret _ => some .stackUnderflow
  | .skp _ | .sknp _ => some .keyIndexRange
  | .drw _ _ _ | .ldB _ | .dump _ | .load _ => some .memoryRange
  | .cls _ | .sys _ | .jp _ | .seImm _ _ | .sneImm _ _ | .seReg _ _ _ | .ldImm _ _ | .addImm _ _ | .ldReg _ _
  | .orReg _ _ | .andReg _ _ | .xorReg _ _ | .addReg _ _ | .subReg _ _ | .shr _ _ | .subnReg _ _ | .shl _ _
  | .sneReg _ _ _ | .ldI _ | .jpV0 _ | .rnd _ _ | .ldVxDt _ | .ldVxK _ | .ldDtVx _ | .ldStVx _ | .addI _
  | .ldF _ => none

/-! ## The sprite of DRW as a closed form -/

/-- The sprite bit DRW Vx, Vy, n puts over the cell (X, Y), from the coordinate formula of R70: the cell is
`(X - Vx) mod 64` columns and `(Y - Vy) mod 32` rows into the sprite; outside 8 columns and n rows the bit is 0. -/
def spriteBit (s : State) (x y n : Nibble) (X : Fin 64) (Y : Fin 32) : Bool :=
  let col := (X.val + 64 - (getV s x).toNat % 64) % 64
  let row := (Y.val + 32 - (getV s y).toNat % 32) % 32
  decide (col < 8) && decide (row < n.toNat) && (memByte s (indexAddr s row)).getLsbD (7 - col)

/-- Some sprite bit 1 meets a lit cell (R70). -/
abbrev Collides (s : State) (x y n : Nibble) : Prop :=
  ∃ (X : Fin 64) (Y : Fin 32), spriteBit s x y n X Y = true ∧ pixel s.disp X Y = true

/-- Every byte of the sprite is in memory; with `n = 0` there is none to read (R37, R70). -/
abbrev SpriteInMemory (s : State) (n : Nibble) : Prop := n = 0x0#4 ∨ indexAddr s (n.toNat - 1) ≤ 0xFFF

/-! ## Conditions of a step -/

/-- A step can fetch: the unit is loaded and the word at PC is inside memory (R53, R127). -/
abbrev CanFetch (s : State) : Prop := s.phase = .loaded ∧ s.pc.toNat ≤ 0xFFE

/-- The state in which the fetched instruction of a step executes (R50: keys latched, flag cleared, PC advanced). -/
def fetchedState (keys : BitVec 16) (rnd : Byte) (s : State) : State :=
  { s with keys := latchOfPort keys, rnd := rnd, dchg := false, pc := s.pc + 2 }

/-- The emergent condition "blocked awaiting key" (R29): the word at PC is LD Vx, K and no key is pressed. -/
abbrev AwaitingKey (keys : BitVec 16) (s : State) : Prop :=
  CanFetch s ∧ (∃ x, decode (wordAtPc s) = .ok (.ldVxK x)) ∧ keys = 0x0000#16

/-- A step or a transaction ended without a fault. -/
abbrev NoFault (t : State) : Prop := isFaulted t = false

end Sys2Proof.Machine
end

