-- ==== Sys2Proof/Certificates/Slice0/Obligations.lean ====
section
/-! DEFINITION. The statements for the provers. An instruction's statement is about `exec` in the state the fetch
leaves, so `s.pc` is the instruction's address plus 2 (R13); a statement about a step is about `stepWith`, the
transaction `step(keys, rnd)`, or about `step`, the same with the host's next payload. -/

open Sys2Proof Sys2Proof.Machine

/-! ## Encoding and decoding -/

/-- Decoding what the encoder writes gives the instruction back, alone and at the head of any bytes: every operand of
every well-formed instruction, at every value (R33, R47, R48, R65). That the bits the dispatch does not examine are
operands too is the model's choice (notes/assumptions/6.md). -/
def Obligations.DecodeInvertsEncode : Prop :=
  ∀ i : Instr, wellFormed i = true →
    decode (encode i) = .ok i ∧ ∀ rest : List Byte, decodeBytes (encodeBytes i ++ rest) = .ok (i, rest)

/-- The other direction: a word that decodes is the encoding of what it decodes to, and the decoder answers well-formed
instructions only (the patterns of R48 and R65). For the bits the dispatch does not examine (the ignored nibble of CLS,
RET, SE Vx, Vy and SNE Vx, Vy, the field y of SHR and SHL, nnn of SYS) `encode i = w` is the MODEL'S CHOICE and no rule
of the spec: it holds because the model keeps these bits as operands (DESIGN CHOICE, notes/assumptions/6.md). -/
def Obligations.EncodeInvertsDecode : Prop :=
  ∀ (w : Word) (i : Instr), decode w = .ok i → encode i = w ∧ wellFormed i = true

/-- R65: a word decodes to the FIRST row of the opcode map it matches (`w AND mask = match`), a word the decoder
refuses matches no row, and two rows a word matches are the same one unless one of them is SYS. The last clause is the
spec's own inference from R57 to R62 ("Every 16-bit word matches exactly one row of this table after CLS and RET are
tested before SYS"). -/
def Obligations.DecodeFollowsOpcodeMap : Prop :=
  ∀ w : Word,
    (∀ i, decode w = .ok i → (matchingRow w).map OpcodeRow.mnemonic = some (mnemonicOf i)) ∧
    (∀ r, decode w = .error r → matchingRow w = none) ∧
    (∀ r ∈ opcodeMap, ∀ q ∈ opcodeMap, w &&& r.mask = r.pattern → w &&& q.mask = q.pattern →
      r = q ∨ r.mnemonic = "SYS nnn" ∨ q.mnemonic = "SYS nnn")

/-- R63: the undecodable words are exactly the listed ones, and a step on one changes only what steps 1, 2 and 6 and
the fetch change; every other word decodes to an instruction that is not SYS. -/
def Obligations.UndecodableWordsAreNoOps : Prop :=
  (∀ (keys : BitVec 16) (rnd : Byte) (s : State), CanFetch s → undecodableWord (wordAtPc s) = true →
    stepWith keys rnd s = .next (tickTimers (fetchedState keys rnd s))) ∧
  (∀ w : Word, undecodableWord w = false → ∃ i, decode w = .ok i ∧ ∀ nnn, i ≠ .sys nnn)

/-- Words written out bit by bit from the patterns of R65, one for each family of sub-opcodes. -/
def Obligations.SampleWordsDecode : Prop :=
  decode 0b0000000011100000#16 = .ok (.cls 0x0) ∧
  decode 0b0000000011101110#16 = .ok (.ret 0x0) ∧
  decode 0b0000000100100011#16 = .ok (.sys 0x123) ∧
  decode 0b0001001000110100#16 = .ok (.jp 0x234) ∧
  decode 0b0011001100010010#16 = .ok (.seImm 0x3 0x12) ∧
  decode 0b1000000100100111#16 = .ok (.subnReg 0x1 0x2) ∧
  decode 0b1000000100101110#16 = .ok (.shl 0x1 0x2) ∧
  decode 0b1101000000010101#16 = .ok (.drw 0x0 0x1 0x5) ∧
  decode 0b1110001010011110#16 = .ok (.skp 0x2) ∧
  decode 0b1111001001010101#16 = .ok (.dump 0x2) ∧
  decode 0b1111001101100101#16 = .ok (.load 0x3)

/-- R58, R62: the ignored nibble of CLS, RET, SE Vx, Vy and SNE Vx, Vy changes nothing under the policy `ignore`;
under `refuse` a step that fetches such a word with a non-zero nibble is refused. -/
def Obligations.IgnoredNibblePolicyHolds : Prop :=
  (∀ (u x y : Nibble) (s : State),
    exec (.cls u) s = exec (.cls 0x0) s ∧ exec (.ret u) s = exec (.ret 0x0) s ∧
    exec (.seReg x y u) s = exec (.seReg x y 0x0) s ∧ exec (.sneReg x y u) s = exec (.sneReg x y 0x0) s) ∧
  (∀ (keys : BitVec 16) (rnd : Byte) (s : State) (i : Instr), CanFetch s → decode (wordAtPc s) = .ok i →
    ignoredNibble i ≠ 0x0#4 → s.cfg.policy = .refuse → stepWith keys rnd s = .refused .ignoredNibble) ∧
  (∀ (w : Word) (i : Instr), decode w = .ok i → decodeUnder .ignore w = .ok i)

/-! ## The step -/

/-- When the word at PC decodes to an instruction, a step is that instruction's execution in the state in which the
keys are latched, the random byte is taken, DCHG is cleared and PC is advanced by 2; after it the timers tick, unless
it faulted (R50). -/
def Obligations.StepRunsDecodedInstruction : Prop :=
  ∀ (s : State) (i : Instr), CanFetch s → decodeUnder s.cfg.policy (wordAtPc s) = .ok i →
    step s =
      match exec i (fetchedState (nextInput s).keys (nextInput s).rnd (takeInput s)) with
      | .next t => .next (if isFaulted t then t else tickTimers t)
      | .fault f => .fault f
      | .refused q => .refused q

/-- R33, R53: the fetch reads the two bytes at PC, the high byte at the lower address, for every PC, even or odd, up
to 0xFFE, and advances PC by 2; above that it raises FETCH_RANGE. -/
def Obligations.FetchReadsBigEndianWord : Prop :=
  ∀ s : State,
    (s.pc.toNat ≤ 0xFFE → ∃ w : Word, fetch s = .ok (w, { s with pc := s.pc + 2 }) ∧
      w.extractLsb' 8 8 = memByte s s.pc.toNat ∧ w.extractLsb' 0 8 = memByte s (s.pc.toNat + 1)) ∧
    (0xFFE < s.pc.toNat → fetch s = .error .fetchRange)

/-- R112: a step with PC above 0xFFE takes FETCH_RANGE, whatever stands in memory. -/
def Obligations.FetchBeyondMemoryFaults : Prop :=
  ∀ (keys : BitVec 16) (rnd : Byte) (s : State), s.phase = .loaded → 0xFFE < s.pc.toNat →
    ∃ t, stepWith keys rnd s = .next t ∧ t.phase = .faulted .fetchRange

/-- R51: after every step that did not fault the latch holds the step's key vector, whatever was executed. -/
def Obligations.StepLatchesKeys : Prop :=
  ∀ (keys : BitVec 16) (rnd : Byte) (s t : State), stepWith keys rnd s = .next t → NoFault t →
    ∀ k : Fin 16, keyDown t k = keys.getLsbD k.val

/-- R52: after a step that did not fault, DCHG is true exactly when the step executed a DRW. -/
def Obligations.DisplayChangedExactlyAfterDraw : Prop :=
  ∀ (keys : BitVec 16) (rnd : Byte) (s t : State), stepWith keys rnd s = .next t → NoFault t →
    (t.dchg = true ↔ ∃ x y n, decode (wordAtPc s) = .ok (.drw x y n))

/-- R119: every step that does not fault decrements each timer by 1, saturating at 0; the instruction that writes a
timer gets the decrement of the value it wrote (R104, R105, R132). -/
def Obligations.TimersTickEveryStep : Prop :=
  ∀ (keys : BitVec 16) (rnd : Byte) (s t : State), stepWith keys rnd s = .next t → NoFault t →
    ((∀ x, decode (wordAtPc s) ≠ .ok (.ldDtVx x)) → t.dt.toNat = s.dt.toNat - 1) ∧
    ((∀ x, decode (wordAtPc s) ≠ .ok (.ldStVx x)) → t.st.toNat = s.st.toNat - 1) ∧
    (∀ x, decode (wordAtPc s) = .ok (.ldDtVx x) → t.dt.toNat = (getV s x).toNat - 1) ∧
    (∀ x, decode (wordAtPc s) = .ok (.ldStVx x) → t.st.toNat = (getV s x).toNat - 1)

/-- R55, R120: of two steps that differ in the random byte alone and do not execute RND, either both fault with one code
or both end without a fault, and then the states differ in nothing but the byte the model keeps. Of the rest of two
faulted states nothing is said: R113 leaves it unspecified (notes/assumptions/2.md). -/
def Obligations.RandomByteReachesOnlyRnd : Prop :=
  ∀ (keys : BitVec 16) (r1 r2 : Byte) (s t1 t2 : State),
    stepWith keys r1 s = .next t1 → stepWith keys r2 s = .next t2 →
    (∀ x kk, decode (wordAtPc s) ≠ .ok (.rnd x kk)) →
    t1.phase = t2.phase ∧ (NoFault t1 → t1 = { t2 with rnd := t1.rnd })

/-! ## The lifecycle -/

/-- R125: what `new` leaves, in every phase: the font and zeros in memory, zeros in every register, PC at 0x200, an
empty stack, zero timers, a blank display, no key, phase Fresh; the reset state of the model is one that `new` leaves as it
is. -/
def Obligations.NewGivesInitialState : Prop :=
  (∀ s : State, ∃ t, transact .new s = .next t ∧
    (∀ a (h : a < 80), memByte t a = s.cfg.font[a]) ∧ (∀ a, 80 ≤ a → memByte t a = 0x00#8) ∧
    (∀ r, getV t r = 0x00#8) ∧ t.idx = 0x0000#16 ∧ t.pc = 0x0200#16 ∧ t.sp.val = 0 ∧
    (∀ k : Fin 16, t.stack[k.val] = 0x0000#16) ∧ t.dt = 0x00#8 ∧ t.st = 0x00#8 ∧
    (∀ X Y, pixel t.disp X Y = false) ∧ t.dchg = false ∧ (∀ k, keyDown t k = false) ∧ t.phase = .fresh) ∧
  (newUnit State.reset = State.reset)

/-- R126: `load` of a Fresh unit puts the image at 0x200 and changes no other byte, and the phase becomes Loaded; an
image that does not fit takes LOAD_OVERSIZE (R107). -/
def Obligations.LoadInstallsImage : Prop :=
  ∀ (bytes : List Byte) (s : State), s.phase = .fresh →
    (bytes.length ≤ 3584 → ∃ t, transact (.load bytes) s = .next t ∧
      (∀ i (h : i < bytes.length), memByte t (0x200 + i) = bytes[i]) ∧
      (∀ a, a < 0x200 ∨ 0x200 + bytes.length ≤ a → memByte t a = memByte s a) ∧
      t = { s with mem := t.mem, phase := .loaded }) ∧
    (3584 < bytes.length → ∃ t, transact (.load bytes) s = .next t ∧ t.phase = .faulted .loadOversize)

/-- R127, the whole table: which transactions each phase refuses, that `new` is admitted in every phase, what `load`
makes of a Fresh unit, and that a Loaded unit executes a step (under the default policy, R7). -/
def Obligations.LifecycleOrderIsKept : Prop :=
  (∀ keys rnd s, s.phase = .fresh → transact (.step keys rnd) s = .refused .stepWhenFresh) ∧
  (∀ keys rnd s c, s.phase = .faulted c → transact (.step keys rnd) s = .refused .stepWhenFaulted) ∧
  (∀ bytes s, s.phase = .loaded → transact (.load bytes) s = .refused .loadWhenLoaded) ∧
  (∀ bytes s c, s.phase = .faulted c → transact (.load bytes) s = .refused .loadWhenFaulted) ∧
  (∀ s, ∃ t, transact .new s = .next t ∧ t.phase = .fresh) ∧
  (∀ bytes s, s.phase = .fresh →
    ∃ t, transact (.load bytes) s = .next t ∧ (t.phase = .loaded ∨ t.phase = .faulted .loadOversize)) ∧
  (∀ keys rnd s, s.phase = .loaded → s.cfg.policy = .ignore →
    ∃ t, transact (.step keys rnd) s = .next t ∧ (t.phase = .loaded ∨ isFaulted t = true))

/-- R129: every step either completes or faults. Every instruction answers a next state in every state, whatever its
operands and whatever the phase, and the phase changes only by a fault. -/
def Obligations.EveryInstructionCompletesOrFaults : Prop :=
  ∀ (i : Instr) (s : State), ∃ t, exec i s = .next t ∧ (t.phase = s.phase ∨ isFaulted t = true)

/-- A fault of a step is FETCH_RANGE, when PC is above 0xFFE, or else the one kind of fault of the instruction at PC; so
the fetch's fault takes precedence. This is R114, which the spec marks as its own inference ("In a step, FETCH_RANGE is
checked before decode, so it takes precedence over any fault of the instruction"). -/
def Obligations.StepFaultIsAttributed : Prop :=
  ∀ (keys : BitVec 16) (rnd : Byte) (s t : State) (c : Fault),
    stepWith keys rnd s = .next t → t.phase = .faulted c →
    (0xFFE < s.pc.toNat ∧ c = .fetchRange) ∨
    (s.pc.toNat ≤ 0xFFE ∧ ∃ i, decode (wordAtPc s) = .ok i ∧ faultKind i = some c)

/-- R32, R106: the outputs. `sound_active` is ST ≠ 0, and `fault` is the code of the fault taken, 0 without one. -/
def Obligations.OutputsReportState : Prop :=
  ∀ s : State,
    (soundActive s = true ↔ s.st.toNat ≠ 0) ∧ displayOut s = s.disp ∧ displayChanged s = s.dchg ∧
    (isFaulted s = false → faultOut s = 0) ∧
    (s.phase = .faulted .loadOversize → faultOut s = 1) ∧ (s.phase = .faulted .stackOverflow → faultOut s = 2) ∧
    (s.phase = .faulted .stackUnderflow → faultOut s = 3) ∧ (s.phase = .faulted .keyIndexRange → faultOut s = 4) ∧
    (s.phase = .faulted .memoryRange → faultOut s = 5) ∧ (s.phase = .faulted .fetchRange → faultOut s = 6)

/-- R113: a fault is terminal. Whatever transactions follow, a run from a Faulted unit gives a next state only by
applying `new`. -/
def Obligations.OnlyNewLeavesFaulted : Prop :=
  ∀ (ts : List Transaction) (s t : State), isFaulted s = true → ts ≠ [] → runHost ts s = .next t →
    ∃ rest, ts = .new :: rest

/-! ## The invariant -/

/-- Every step keeps the invariant: memory stays canonical (R20; the form is the model's, notes/assumptions/11.md) and,
without a fault, PC and the return addresses stay in reach. The bounds are R54's, which the spec marks as its own
inference from R53, R74, R79 and R103 ("a pushed return address is at most 0x1000"). -/
def Obligations.StepKeepsInvariant : Prop :=
  ∀ s t : State, UnitInv s → step s = .next t → UnitInv t

/-- Every run of a host, with any images and any payloads, keeps the invariant: `new` and `load` keep it too (R125,
R126). The canonical form of memory is the model's (notes/assumptions/11.md), and the bounds are R54's, which the spec
marks as its own inference from R53, R74, R79 and R103 ("a pushed return address is at most 0x1000"). -/
def Obligations.HostRunKeepsInvariant : Prop :=
  ∀ (ts : List Transaction) (s t : State), UnitInv s → runHost ts s = .next t → UnitInv t

/-- The invariant holds at reset: PC is 0x200 and the stack is empty (R125), within the bounds of R54, which the spec
marks as its own inference ("a pushed return address is at most 0x1000"). That memory is canonical there is about the
model's form of memory and no rule of the spec (notes/assumptions/11.md). -/
def Obligations.ResetMeetsInvariant : Prop := UnitInv State.reset

/-! ## Memory -/

/-- A read returns the byte last written, and a write changes only its own byte (R38, which the spec marks as its own
inference: "a write changes only its own byte"); no address up to 0xFFF is protected (R41) and none above it exists
(R37). -/
def Obligations.MemoryIsPlain : Prop :=
  ∀ (s : State) (a : Nat) (b : Byte),
    (a ≤ 0xFFF → ∃ t, memWrite s a b = .ok t ∧ memRead t a = .ok b ∧
      (∀ c, c ≠ a → memByte t c = memByte s c) ∧ OnlyMem s t) ∧
    (0xFFF < a → memWrite s a b = .error .memoryRange ∧ memRead s a = .error .memoryRange)

/-! ## Whole-machine rules -/

/-- R20: among the instructions only LD B and LD [I] write memory. -/
def Obligations.OnlyStoresChangeMemory : Prop :=
  ∀ (i : Instr) (s t : State), NoFault s → exec i s = .next t → NoFault t →
    (∀ x, i ≠ .ldB x) → (∀ x, i ≠ .dump x) → t.mem = s.mem ∧ SameBytes s t

/-- R17: an instruction outside the six that write VF as a flag leaves VF unchanged unless it names VF as its
destination, and one of the six leaves a 0 or a 1 there. -/
def Obligations.VfChangesOnlyAsFlagOrDestination : Prop :=
  ∀ (i : Instr) (s t : State), NoFault s → exec i s = .next t → NoFault t →
    (writesFlag i = false → destination i ≠ some vf → getV t vf = getV s vf) ∧
    (writesFlag i = true → getV t vf = 0x00#8 ∨ getV t vf = 0x01#8)

/-- R18: I is written by LD I, ADD I and LD F alone. -/
def Obligations.OnlyThreeInstructionsWriteIndex : Prop :=
  ∀ (i : Instr) (s t : State), NoFault s → exec i s = .next t → NoFault t →
    (∀ nnn, i ≠ .ldI nnn) → (∀ x, i ≠ .addI x) → (∀ x, i ≠ .ldF x) → t.idx = s.idx

/-- R22, R23: the stack and its pointer are touched by CALL and RET alone. -/
def Obligations.OnlyCallAndRetTouchStack : Prop :=
  ∀ (i : Instr) (s t : State), NoFault s → exec i s = .next t → NoFault t →
    (∀ nnn, i ≠ .call nnn) → (∀ u, i ≠ .ret u) → t.stack = s.stack ∧ t.sp = s.sp

/-- R25: the display is changed by CLS and DRW alone. -/
def Obligations.OnlyClearAndDrawChangeDisplay : Prop :=
  ∀ (i : Instr) (s t : State), NoFault s → exec i s = .next t → NoFault t →
    (∀ u, i ≠ .cls u) → (∀ x y n, i ≠ .drw x y n) → t.disp = s.disp

/-- No instruction writes the lifecycle state but by a fault (R30, which the spec marks as its own inference), and none
changes the input latch (R27) or the unit's parameters. That none changes `rnd` and `inputs` is about the model's own
fields (notes/assumptions/3.md, notes/assumptions/4.md). -/
def Obligations.InstructionsKeepLifecycleAndInputs : Prop :=
  ∀ (i : Instr) (s t : State), NoFault s → exec i s = .next t →
    t.cfg = s.cfg ∧ t.rnd = s.rnd ∧ t.inputs = s.inputs ∧ (NoFault t → t.phase = s.phase ∧ t.keys = s.keys)

/-- An instruction raises at most one kind of fault: R114, which the spec marks as its own inference ("each
instruction can raise only one kind of fault"). -/
def Obligations.EachInstructionHasOneFaultKind : Prop :=
  ∀ (i : Instr) (s t : State) (c : Fault), NoFault s → exec i s = .next t → t.phase = .faulted c →
    faultKind i = some c

/-! ## Display -/

/-- R69: CLS sets every cell to 0 and changes nothing else, DCHG among it. -/
def Obligations.ClsBlanksDisplay : Prop :=
  ∀ (u : Nibble) (s : State), ∃ t, exec (.cls u) s = .next t ∧
    (∀ X Y, pixel t.disp X Y = false) ∧ t = { s with disp := t.disp } ∧ SameBytes s t

/-- R70: DRW XORs the sprite at I into the display, wrapping each axis on its own; VF is 1 exactly when a sprite bit 1
met a lit cell; DCHG is set whatever was drawn; a sprite that leaves memory takes MEMORY_RANGE. What R70 adds of a second
draw is DrawingTwiceRestoresDisplay (notes/assumptions/21.md). -/
def Obligations.DrwXorsSprite : Prop :=
  ∀ (x y n : Nibble) (s : State),
    (SpriteInMemory s n → ∃ t, exec (.drw x y n) s = .next t ∧
      (∀ X Y, pixel t.disp X Y = (pixel s.disp X Y ^^ spriteBit s x y n X Y)) ∧
      (Collides s x y n → getV t vf = 0x01#8) ∧ (¬ Collides s x y n → getV t vf = 0x00#8) ∧
      OtherRegs s t vf ∧ t.dchg = true ∧
      t = { s with v := t.v, disp := t.disp, dchg := t.dchg } ∧ SameBytes s t) ∧
    (¬ SpriteInMemory s n → ∃ t, exec (.drw x y n) s = .next t ∧ t.phase = .faulted .memoryRange)

/-- The source's double-XOR property (95_test_vectors.md L1 item 5): drawing the same sprite twice at the same place
restores the display, and the second draw's VF is 1 exactly when the first one lit some cell (its inference from R70's
pseudocode; notes/assumptions/21.md). The coordinates are not in VF, which the first draw overwrites. -/
def Obligations.DrawingTwiceRestoresDisplay : Prop :=
  ∀ (x y n : Nibble) (s : State), SpriteInMemory s n → x ≠ vf → y ≠ vf →
    ∃ t u, exec (.drw x y n) s = .next t ∧ exec (.drw x y n) t = .next u ∧ u.disp = s.disp ∧
      (getV u vf = 0x01#8 ↔ ∃ X Y, spriteBit s x y n X Y = true ∧ pixel s.disp X Y = false)

/-! ## Control transfer -/

/-- R64: SYS nnn changes nothing. -/
def Obligations.SysChangesNothing : Prop := ∀ (nnn : Addr) (s : State), exec (.sys nnn) s = .next s

/-- R72: RET pops the top entry into PC, or takes STACK_UNDERFLOW when the stack is empty (R109). -/
def Obligations.RetPopsReturnAddress : Prop :=
  ∀ (u : Nibble) (s : State),
    (∀ k : Fin 16, s.sp.val = k.val + 1 → ∃ t, exec (.ret u) s = .next t ∧
      t.sp.val = k.val ∧ t.pc = s.stack[k.val] ∧ t = { s with sp := t.sp, pc := t.pc } ∧ SameBytes s t) ∧
    (s.sp.val = 0 → ∃ t, exec (.ret u) s = .next t ∧ t.phase = .faulted .stackUnderflow)

/-- R74: CALL pushes the advanced PC and jumps, or takes STACK_OVERFLOW with sixteen entries (R108). -/
def Obligations.CallPushesAdvancedPc : Prop :=
  ∀ (nnn : Addr) (s : State),
    (s.sp.val < 16 → ∃ t, exec (.call nnn) s = .next t ∧
      (∀ k : Fin 16, t.stack[k.val] = if k.val = s.sp.val then s.pc else s.stack[k.val]) ∧
      t.sp.val = s.sp.val + 1 ∧ t.pc.toNat = nnn.toNat ∧
      t = { s with stack := t.stack, sp := t.sp, pc := t.pc } ∧ SameBytes s t) ∧
    (s.sp.val = 16 → ∃ t, exec (.call nnn) s = .next t ∧ t.phase = .faulted .stackOverflow)

/-- A return after a call goes back to the instruction after the call with the stack as deep as before (R72, R74). -/
def Obligations.RetReturnsAfterCall : Prop :=
  ∀ (nnn : Addr) (u : Nibble) (s : State), s.sp.val < 16 →
    ∃ t r, exec (.call nnn) s = .next t ∧ exec (.ret u) t = .next r ∧ r.pc = s.pc ∧ r.sp = s.sp ∧
      ∀ k : Fin 16, k.val < s.sp.val → r.stack[k.val] = s.stack[k.val]

/-- R73: JP sets PC to its 12-bit address. -/
def Obligations.JpSetsPc : Prop :=
  ∀ (nnn : Addr) (s : State), ∃ t, exec (.jp nnn) s = .next t ∧ t.pc.toNat = nnn.toNat ∧ OnlyPc s t

/-- R79: JP V0, nnn sets PC to the sum of V0 and nnn, which never wraps. -/
def Obligations.JpV0AddsV0 : Prop :=
  ∀ (nnn : Addr) (s : State), ∃ t, exec (.jpV0 nnn) s = .next t ∧
    t.pc.toNat = (getV s 0x0#4).toNat + nnn.toNat ∧ OnlyPc s t

/-- R75, R76: SE and SNE with an immediate skip two more bytes exactly when the register equals, or differs from, kk. -/
def Obligations.ImmediateSkips : Prop :=
  ∀ (x : Nibble) (kk : Byte) (s : State),
    (∃ t, exec (.seImm x kk) s = .next t ∧
      (getV s x = kk → t.pc = s.pc + 2) ∧ (getV s x ≠ kk → t.pc = s.pc) ∧ OnlyPc s t) ∧
    (∃ t, exec (.sneImm x kk) s = .next t ∧
      (getV s x ≠ kk → t.pc = s.pc + 2) ∧ (getV s x = kk → t.pc = s.pc) ∧ OnlyPc s t)

/-- R77, R78: SE and SNE of two registers, for every value of the ignored nibble. -/
def Obligations.RegisterSkips : Prop :=
  ∀ (x y u : Nibble) (s : State),
    (∃ t, exec (.seReg x y u) s = .next t ∧
      (getV s x = getV s y → t.pc = s.pc + 2) ∧ (getV s x ≠ getV s y → t.pc = s.pc) ∧ OnlyPc s t) ∧
    (∃ t, exec (.sneReg x y u) s = .next t ∧
      (getV s x ≠ getV s y → t.pc = s.pc + 2) ∧ (getV s x = getV s y → t.pc = s.pc) ∧ OnlyPc s t)

/-- R80, R81: SKP and SKNP skip by the latched level of key V[x]; an index of 16 or more takes KEY_INDEX_RANGE. -/
def Obligations.KeySkips : Prop :=
  ∀ (x : Nibble) (s : State),
    (∀ k : Fin 16, (getV s x).toNat = k.val →
      (∃ t, exec (.skp x) s = .next t ∧
        (keyDown s k = true → t.pc = s.pc + 2) ∧ (keyDown s k = false → t.pc = s.pc) ∧ OnlyPc s t) ∧
      (∃ t, exec (.sknp x) s = .next t ∧
        (keyDown s k = false → t.pc = s.pc + 2) ∧ (keyDown s k = true → t.pc = s.pc) ∧ OnlyPc s t)) ∧
    (16 ≤ (getV s x).toNat →
      (∃ t, exec (.skp x) s = .next t ∧ t.phase = .faulted .keyIndexRange) ∧
      (∃ t, exec (.sknp x) s = .next t ∧ t.phase = .faulted .keyIndexRange))

/-! ## Arithmetic -/

/-- R83, R85: LD Vx, kk and LD Vx, Vy. -/
def Obligations.RegisterLoads : Prop :=
  ∀ (x y : Nibble) (kk : Byte) (s : State),
    (∃ t, exec (.ldImm x kk) s = .next t ∧ getV t x = kk ∧ OtherRegs s t x ∧ OnlyV s t) ∧
    (∃ t, exec (.ldReg x y) s = .next t ∧ getV t x = getV s y ∧ OtherRegs s t x ∧ OnlyV s t)

/-- R84: ADD Vx, kk wraps modulo 256 and writes no flag. -/
def Obligations.AddImmediateWraps : Prop :=
  ∀ (x : Nibble) (kk : Byte) (s : State), ∃ t, exec (.addImm x kk) s = .next t ∧
    (getV t x).toNat = ((getV s x).toNat + kk.toNat) % 256 ∧ OtherRegs s t x ∧ OnlyV s t

/-- R86, R87, R88: OR, AND and XOR, bit by bit, write Vx and no flag. -/
def Obligations.LogicOperations : Prop :=
  ∀ (x y : Nibble) (s : State),
    (∃ t, exec (.orReg x y) s = .next t ∧
      (∀ k, (getV t x).getLsbD k = ((getV s x).getLsbD k || (getV s y).getLsbD k)) ∧
      OtherRegs s t x ∧ OnlyV s t) ∧
    (∃ t, exec (.andReg x y) s = .next t ∧
      (∀ k, (getV t x).getLsbD k = ((getV s x).getLsbD k && (getV s y).getLsbD k)) ∧
      OtherRegs s t x ∧ OnlyV s t) ∧
    (∃ t, exec (.xorReg x y) s = .next t ∧
      (∀ k, (getV t x).getLsbD k = ((getV s x).getLsbD k ^^ (getV s y).getLsbD k)) ∧
      OtherRegs s t x ∧ OnlyV s t)

/-- R89: ADD Vx, Vy wraps modulo 256 and VF is the carry; with x = 0xF the carry is what VF holds. -/
def Obligations.AddRegistersSetsCarry : Prop :=
  ∀ (x y : Nibble) (s : State), ∃ t, exec (.addReg x y) s = .next t ∧
    (x ≠ vf → (getV t x).toNat = ((getV s x).toNat + (getV s y).toNat) % 256) ∧
    (255 < (getV s x).toNat + (getV s y).toNat → getV t vf = 0x01#8) ∧
    ((getV s x).toNat + (getV s y).toNat ≤ 255 → getV t vf = 0x00#8) ∧ OtherRegsButVf s t x ∧ OnlyV s t

/-- R90: SUB Vx, Vy is Vx - Vy modulo 256 and VF is 1 only when Vx is strictly greater. -/
def Obligations.SubSetsStrictNoBorrow : Prop :=
  ∀ (x y : Nibble) (s : State), ∃ t, exec (.subReg x y) s = .next t ∧
    (x ≠ vf → ((getV t x).toNat : Int) = ((getV s x).toNat - (getV s y).toNat : Int) % 256) ∧
    ((getV s y).toNat < (getV s x).toNat → getV t vf = 0x01#8) ∧
    ((getV s x).toNat ≤ (getV s y).toNat → getV t vf = 0x00#8) ∧ OtherRegsButVf s t x ∧ OnlyV s t

/-- R92: SUBN Vx, Vy is Vy - Vx modulo 256 and VF is 1 only when Vy is strictly greater. -/
def Obligations.SubnSetsStrictNoBorrow : Prop :=
  ∀ (x y : Nibble) (s : State), ∃ t, exec (.subnReg x y) s = .next t ∧
    (x ≠ vf → ((getV t x).toNat : Int) = ((getV s y).toNat - (getV s x).toNat : Int) % 256) ∧
    ((getV s x).toNat < (getV s y).toNat → getV t vf = 0x01#8) ∧
    ((getV s y).toNat ≤ (getV s x).toNat → getV t vf = 0x00#8) ∧ OtherRegsButVf s t x ∧ OnlyV s t

/-- R91, R93: SHR and SHL shift Vx, whatever y names, by one bit; VF is the bit shifted out. -/
def Obligations.ShiftsMoveOneBitToVf : Prop :=
  ∀ (x y : Nibble) (s : State),
    (∃ t, exec (.shr x y) s = .next t ∧
      (x ≠ vf → (getV t x).toNat = (getV s x).toNat / 2) ∧ (getV t vf).toNat = (getV s x).toNat % 2 ∧
      OtherRegsButVf s t x ∧ OnlyV s t) ∧
    (∃ t, exec (.shl x y) s = .next t ∧
      (x ≠ vf → (getV t x).toNat = (getV s x).toNat * 2 % 256) ∧ (getV t vf).toNat = (getV s x).toNat / 128 ∧
      OtherRegsButVf s t x ∧ OnlyV s t)

/-- R95: RND leaves the AND of the step's random byte and kk: a bit not set in kk is 0, any other is the draw's. -/
def Obligations.RndMasksRandomByte : Prop :=
  ∀ (x : Nibble) (kk : Byte) (s : State), ∃ t, exec (.rnd x kk) s = .next t ∧
    (∀ k, (getV t x).getLsbD k = (s.rnd.getLsbD k && kk.getLsbD k)) ∧ OtherRegs s t x ∧ OnlyV s t

/-! ## Index register and memory transfers -/

/-- R96, R97, R98: LD I is the 12-bit value, ADD I the sum modulo 65536, LD F five times the whole register; no flag. -/
def Obligations.IndexWrites : Prop :=
  ∀ (nnn : Addr) (x : Nibble) (s : State),
    (∃ t, exec (.ldI nnn) s = .next t ∧ t.idx.toNat = nnn.toNat ∧ OnlyIdx s t) ∧
    (∃ t, exec (.addI x) s = .next t ∧ t.idx.toNat = (s.idx.toNat + (getV s x).toNat) % 65536 ∧ OnlyIdx s t) ∧
    (∃ t, exec (.ldF x) s = .next t ∧ t.idx.toNat = (getV s x).toNat * 5 ∧ OnlyIdx s t)

/-- R99: LD B stores the three decimal digits at I, I+1, I+2 and changes no other byte, or takes MEMORY_RANGE when
I + 2 is above 0xFFF (R111). -/
def Obligations.BcdStoresDigits : Prop :=
  ∀ (x : Nibble) (s : State),
    (indexAddr s 2 ≤ 0xFFF → ∃ t, exec (.ldB x) s = .next t ∧
      (memByte t (indexAddr s 0)).toNat = (getV s x).toNat / 100 ∧
      (memByte t (indexAddr s 1)).toNat = (getV s x).toNat / 10 % 10 ∧
      (memByte t (indexAddr s 2)).toNat = (getV s x).toNat % 10 ∧
      (∀ a, a < indexAddr s 0 ∨ indexAddr s 2 < a → memByte t a = memByte s a) ∧ OnlyMem s t) ∧
    (0xFFF < indexAddr s 2 → ∃ t, exec (.ldB x) s = .next t ∧ t.phase = .faulted .memoryRange)

/-- R100: LD [I], Vx stores V0 to Vx, inclusive, at I, changes no other byte and leaves I, or takes MEMORY_RANGE when
I + x is above 0xFFF. -/
def Obligations.DumpStoresRegisters : Prop :=
  ∀ (x : Nibble) (s : State),
    (indexAddr s x.toNat ≤ 0xFFF → ∃ t, exec (.dump x) s = .next t ∧
      (∀ q : Nibble, q ≤ x → memByte t (indexAddr s q.toNat) = getV s q) ∧
      (∀ a, a < indexAddr s 0 ∨ indexAddr s x.toNat < a → memByte t a = memByte s a) ∧ OnlyMem s t) ∧
    (0xFFF < indexAddr s x.toNat → ∃ t, exec (.dump x) s = .next t ∧ t.phase = .faulted .memoryRange)

/-- R101: LD Vx, [I] loads V0 to Vx, inclusive, from memory at I, leaves the registers above x and I, or takes
MEMORY_RANGE when I + x is above 0xFFF. -/
def Obligations.LoadReadsRegisters : Prop :=
  ∀ (x : Nibble) (s : State),
    (indexAddr s x.toNat ≤ 0xFFF → ∃ t, exec (.load x) s = .next t ∧
      (∀ q : Nibble, q ≤ x → getV t q = memByte s (indexAddr s q.toNat)) ∧
      (∀ q : Nibble, x < q → getV t q = getV s q) ∧ OnlyV s t) ∧
    (0xFFF < indexAddr s x.toNat → ∃ t, exec (.load x) s = .next t ∧ t.phase = .faulted .memoryRange)

/-- The source's round trip (95_test_vectors.md L1 item 9): whatever the registers become after a dump, a load from
the same I restores V0 to Vx. -/
def Obligations.DumpThenLoadRestores : Prop :=
  ∀ (x : Nibble) (s : State) (v : RegFile), indexAddr s x.toNat ≤ 0xFFF →
    ∃ t u, exec (.dump x) s = .next t ∧ exec (.load x) { t with v := v } = .next u ∧
      ∀ q : Nibble, q ≤ x → getV u q = getV s q

/-- Bytes a register dump stores where the next fetch reads are the word the next step fetches (R45, R135, which the
spec marks as its own inference: "the next fetch of that address sees the new bytes"). -/
def Obligations.StoredBytesAreFetchedNext : Prop :=
  ∀ (x : Nibble) (s : State), 0x1#4 ≤ x → s.idx = s.pc → indexAddr s x.toNat ≤ 0xFFF →
    ∃ t, exec (.dump x) s = .next t ∧ wordAtPc t = wordOfBytes (getV s 0x0#4) (getV s 0x1#4)

/-! ## Timers and keys -/

/-- R102, R104, R105: LD Vx, DT reads the delay timer, LD DT, Vx and LD ST, Vx write the timers. -/
def Obligations.TimerTransfers : Prop :=
  ∀ (x : Nibble) (s : State),
    (∃ t, exec (.ldVxDt x) s = .next t ∧ getV t x = s.dt ∧ OtherRegs s t x ∧ OnlyV s t) ∧
    (∃ t, exec (.ldDtVx x) s = .next t ∧ t.dt = getV s x ∧ t = { s with dt := t.dt } ∧ SameBytes s t) ∧
    (∃ t, exec (.ldStVx x) s = .next t ∧ t.st = getV s x ∧ t = { s with st := t.st } ∧ SameBytes s t)

/-- R103: LD Vx, K takes the highest pressed key; with no key pressed it rewinds PC by 2 and changes nothing else. -/
def Obligations.WaitForKeyTakesHighest : Prop :=
  ∀ (x : Nibble) (s : State),
    (∀ k : Fin 16, keyDown s k = true → (∀ j : Fin 16, k < j → keyDown s j = false) →
      ∃ t, exec (.ldVxK x) s = .next t ∧ (getV t x).toNat = k.val ∧ OtherRegs s t x ∧ OnlyV s t) ∧
    ((∀ j : Fin 16, keyDown s j = false) →
      ∃ t, exec (.ldVxK x) s = .next t ∧ t.pc = s.pc - 2 ∧ OnlyPc s t)

/-- R29, R124: a step blocked awaiting a key leaves PC where it was and changes nothing but the latch, DCHG and the
timers (and the random byte the model keeps), so the next step executes the same instruction. -/
def Obligations.BlockedStepOnlyTicks : Prop :=
  ∀ (keys : BitVec 16) (rnd : Byte) (s : State), AwaitingKey keys s →
    ∃ t, stepWith keys rnd s = .next t ∧ t.pc = s.pc ∧ t.dchg = false ∧ (∀ k, keyDown t k = false) ∧
      t.dt.toNat = s.dt.toNat - 1 ∧ t.st.toNat = s.st.toNat - 1 ∧
      t = { s with keys := t.keys, rnd := rnd, dchg := t.dchg, dt := t.dt, st := t.st } ∧ SameBytes s t
end

