-- ==== Sys2Proof/Laws/Memory.lean ====
section
/-! SUPPORT. The laws of memory: a read after a write, what a write leaves alone, and that every operation keeps the
canonical form. -/

namespace Sys2Proof.Machine

theorem Memory.lookup_insert (m : Memory) (a c : Nat) (b : Byte) (h : Memory.lookup m a = none) :
    Memory.lookup (Memory.insert m a b) c = if a = c then some b else Memory.lookup m c := by
  induction m with
  | nil => simp [Memory.insert, Memory.lookup]
  | cons p m ih =>
    obtain ⟨k, d⟩ := p
    have hka : k ≠ a := by
      intro e
      simp [Memory.lookup, e] at h
    have hm : Memory.lookup m a = none := by simpa [Memory.lookup, hka] using h
    by_cases hlt : a < k
    · simp [Memory.insert, hlt, Memory.lookup]
    · by_cases hkc : k = c
      · subst hkc
        simp [Memory.insert, hlt, Memory.lookup, Ne.symm hka]
      · simp [Memory.insert, hlt, Memory.lookup, hkc, ih hm]

theorem Memory.lookup_forget (m : Memory) (a c : Nat) :
    Memory.lookup (Memory.forget m a) c = if a = c then none else Memory.lookup m c := by
  induction m with
  | nil => simp [Memory.forget, Memory.lookup]
  | cons p m ih =>
    obtain ⟨k, d⟩ := p
    have ih' : Memory.lookup (m.filter (fun c => c.1 != a)) c = if a = c then none else Memory.lookup m c := ih
    by_cases hka : k = a
    · subst hka
      by_cases hkc : k = c
      · subst hkc
        simpa [Memory.forget, Memory.lookup] using ih'
      · simp [Memory.forget, Memory.lookup, hkc, ih']
    · by_cases hkc : k = c
      · subst hkc
        simp [Memory.forget, Memory.lookup, hka, Ne.symm hka]
      · simp [Memory.forget, Memory.lookup, hka, hkc, ih']

/-- A read after a write to any address: the byte written at the same one, the old byte at every other (R38). -/
theorem Memory.read_write (font : Font) (m : Memory) (a c : Nat) (b : Byte) :
    Memory.read font (Memory.write font m a b) c = if a = c then b else Memory.read font m c := by
  unfold Memory.read Memory.write
  by_cases hb : b = Memory.unlisted font a
  · by_cases hac : a = c
    · subst hac
      simp [hb, Memory.lookup_forget]
    · simp [hb, Memory.lookup_forget, hac]
  · have hn : Memory.lookup (Memory.forget m a) a = none := by simp [Memory.lookup_forget]
    by_cases hac : a = c
    · subst hac
      simp [hb, Memory.lookup_insert _ _ _ _ hn]
    · simp [hb, Memory.lookup_insert _ _ _ _ hn, hac, Memory.lookup_forget]

@[simp] theorem Memory.read_write_same (font : Font) (m : Memory) (a : Nat) (b : Byte) :
    Memory.read font (Memory.write font m a b) a = b := by simp [Memory.read_write]

theorem Memory.read_write_other (font : Font) (m : Memory) (a c : Nat) (b : Byte) (h : a ≠ c) :
    Memory.read font (Memory.write font m a b) c = Memory.read font m c := by simp [Memory.read_write, h]

/-- What consecutive writes leave at an address: the byte of the image that covers it, or the old byte (R126). -/
theorem Memory.read_writeAll (font : Font) (bs : List Byte) (m : Memory) (a c : Nat) :
    Memory.read font (Memory.writeAll font m a bs) c =
      if h : a ≤ c ∧ c - a < bs.length then bs[c - a] else Memory.read font m c := by
  induction bs generalizing m a with
  | nil => simp [Memory.writeAll]
  | cons b bs ih =>
    rw [Memory.writeAll, ih]
    by_cases hac : a = c
    · subst hac
      simp
    · rw [Memory.read_write_other _ _ _ _ _ hac]
      by_cases h : a + 1 ≤ c ∧ c - (a + 1) < bs.length
      · have h' : a ≤ c ∧ c - a < (b :: bs).length := by simp; omega
        rw [dif_pos h, dif_pos h']
        obtain ⟨d, rfl⟩ : ∃ d, c = a + 1 + d := ⟨c - (a + 1), by omega⟩
        have e1 : a + 1 + d - (a + 1) = d := by omega
        have e2 : a + 1 + d - a = d + 1 := by omega
        simp [e1, e2]
      · have h' : ¬ (a ≤ c ∧ c - a < (b :: bs).length) := by simp; omega
        rw [dif_neg h, dif_neg h']

/-! ## The canonical form -/

theorem Memory.mem_insert (m : Memory) (a : Nat) (b : Byte) (c : Host.Cell) :
    c ∈ Memory.insert m a b ↔ c = (a, b) ∨ c ∈ m := by
  induction m with
  | nil => simp [Memory.insert]
  | cons p m ih =>
    obtain ⟨k, d⟩ := p
    unfold Memory.insert
    split <;> simp [ih]
    tauto

theorem Memory.pairwise_insert (m : Memory) (a : Nat) (b : Byte)
    (h : m.Pairwise (fun c d => c.1 < d.1)) (ha : ∀ c ∈ m, c.1 ≠ a) :
    (Memory.insert m a b).Pairwise (fun c d => c.1 < d.1) := by
  induction m with
  | nil => simp [Memory.insert]
  | cons p m ih =>
    obtain ⟨k, d⟩ := p
    rw [List.pairwise_cons] at h
    have hka : k ≠ a := ha (k, d) (by simp)
    unfold Memory.insert
    split
    · rename_i hlt
      refine List.pairwise_cons.mpr ⟨?_, List.pairwise_cons.mpr h⟩
      intro c hc
      rcases List.mem_cons.mp hc with rfl | hc
      · exact hlt
      · exact Nat.lt_trans hlt (h.1 c hc)
    · rename_i hlt
      refine List.pairwise_cons.mpr ⟨?_, ih h.2 (fun c hc => ha c (by simp [hc]))⟩
      intro c hc
      rcases (Memory.mem_insert m a b c).mp hc with rfl | hc
      · exact Nat.lt_of_le_of_ne (Nat.le_of_not_lt hlt) hka
      · exact h.1 c hc

/-- Writing a byte inside the address space keeps the canonical form. -/
theorem Memory.wf_write (font : Font) (m : Memory) (a : Nat) (b : Byte) (h : Memory.wf font m)
    (ha : a ≤ 0xFFF) : Memory.wf font (Memory.write font m a b) := by
  obtain ⟨hp, hc⟩ := h
  have hfp : (Memory.forget m a).Pairwise (fun c d => c.1 < d.1) := hp.filter _
  have hfc : ∀ c ∈ Memory.forget m a, c.1 ≤ 0xFFF ∧ c.2 ≠ Memory.unlisted font c.1 :=
    fun c hcm => hc c (List.mem_filter.mp hcm).1
  unfold Memory.write
  split
  · exact ⟨hfp, hfc⟩
  · rename_i hb
    refine ⟨Memory.pairwise_insert _ _ _ hfp (fun c hcm => by simpa using (List.mem_filter.mp hcm).2), ?_⟩
    intro c hcm
    rcases (Memory.mem_insert _ _ _ _).mp hcm with rfl | hcm
    · exact ⟨ha, hb⟩
    · exact hfc c hcm

theorem Memory.wf_nil (font : Font) : Memory.wf font [] := by simp [Memory.wf]

/-- Writing an image that fits keeps the canonical form. -/
theorem Memory.wf_writeAll (font : Font) (bs : List Byte) (m : Memory) (a : Nat) (h : Memory.wf font m)
    (ha : a + bs.length ≤ 0x1000) : Memory.wf font (Memory.writeAll font m a bs) := by
  induction bs generalizing m a with
  | nil => exact h
  | cons b bs ih =>
    simp only [List.length_cons] at ha
    exact ih _ _ (Memory.wf_write font m a b h (by omega)) (by omega)

/-- Memory made from a function is canonical. -/
theorem Memory.wf_ofBytes (font : Font) (f : Nat → Byte) : Memory.wf font (Memory.ofBytes font f) := by
  unfold Memory.ofBytes
  constructor
  · refine List.Pairwise.filterMap _ ?_ List.pairwise_lt_range
    intro x y hxy c hc d hd
    simp only [Option.ite_none_left_eq_some, Option.some.injEq] at hc hd
    obtain ⟨_, rfl⟩ := hc
    obtain ⟨_, rfl⟩ := hd
    exact hxy
  · intro c hc
    obtain ⟨a, ha, hac⟩ := List.mem_filterMap.mp hc
    simp only [Option.ite_none_left_eq_some, Option.some.injEq] at hac
    obtain ⟨hne, rfl⟩ := hac
    exact ⟨by have := List.mem_range.mp ha; omega, hne⟩

/-! ## The primitives -/

theorem memRead_eq_ok (s : State) (a : Nat) (h : a ≤ 0xFFF) : memRead s a = .ok (memByte s a) := by
  simp [memRead, h]

theorem memRead_eq_error (s : State) (a : Nat) (h : 0xFFF < a) : memRead s a = .error .memoryRange := by
  simp [memRead, Nat.not_le.mpr h]

/-- Everything `MemWrite` can do: store one byte of the address space, or raise MEMORY_RANGE. -/
theorem memWrite_cases (s : State) (a : Nat) (b : Byte) :
    (a ≤ 0xFFF ∧ memWrite s a b = .ok { s with mem := Memory.write s.cfg.font s.mem a b }) ∨
    (0xFFF < a ∧ memWrite s a b = .error .memoryRange) := by
  unfold memWrite
  split
  · exact .inl ⟨‹_›, rfl⟩
  · exact .inr ⟨by omega, rfl⟩

theorem memByte_write (s : State) (a c : Nat) (b : Byte) :
    memByte { s with mem := Memory.write s.cfg.font s.mem a b } c = if a = c then b else memByte s c :=
  Memory.read_write _ _ _ _ _

end Sys2Proof.Machine
end

