-- ==== Sys2Proof/Laws/State.lean ====
section
/-! SUPPORT. What each named update of the state leaves in each field: one lemma per field per update, all by rfl,
so that no later proof unfolds a record update. -/

namespace Sys2Proof.Machine

variable (s : State)

/-! ## setV -/

@[simp] theorem setV_v (r : Nibble) (b : Byte) : (setV s r b).v = s.v.set r.toNat b r.isLt := rfl
@[simp] theorem setV_idx (r : Nibble) (b : Byte) : (setV s r b).idx = s.idx := rfl
@[simp] theorem setV_pc (r : Nibble) (b : Byte) : (setV s r b).pc = s.pc := rfl
@[simp] theorem setV_mem (r : Nibble) (b : Byte) : (setV s r b).mem = s.mem := rfl
@[simp] theorem setV_stack (r : Nibble) (b : Byte) : (setV s r b).stack = s.stack := rfl
@[simp] theorem setV_sp (r : Nibble) (b : Byte) : (setV s r b).sp = s.sp := rfl
@[simp] theorem setV_dt (r : Nibble) (b : Byte) : (setV s r b).dt = s.dt := rfl
@[simp] theorem setV_st (r : Nibble) (b : Byte) : (setV s r b).st = s.st := rfl
@[simp] theorem setV_disp (r : Nibble) (b : Byte) : (setV s r b).disp = s.disp := rfl
@[simp] theorem setV_dchg (r : Nibble) (b : Byte) : (setV s r b).dchg = s.dchg := rfl
@[simp] theorem setV_keys (r : Nibble) (b : Byte) : (setV s r b).keys = s.keys := rfl
@[simp] theorem setV_phase (r : Nibble) (b : Byte) : (setV s r b).phase = s.phase := rfl
@[simp] theorem setV_cfg (r : Nibble) (b : Byte) : (setV s r b).cfg = s.cfg := rfl
@[simp] theorem setV_rnd (r : Nibble) (b : Byte) : (setV s r b).rnd = s.rnd := rfl
@[simp] theorem setV_inputs (r : Nibble) (b : Byte) : (setV s r b).inputs = s.inputs := rfl
@[simp] theorem setV_draws (r : Nibble) (b : Byte) : (setV s r b).draws = s.draws := rfl

/-! ## advancePc -/

@[simp] theorem advancePc_v : (advancePc s).v = s.v := rfl
@[simp] theorem advancePc_idx : (advancePc s).idx = s.idx := rfl
@[simp] theorem advancePc_pc : (advancePc s).pc = s.pc + 2 := rfl
@[simp] theorem advancePc_mem : (advancePc s).mem = s.mem := rfl
@[simp] theorem advancePc_stack : (advancePc s).stack = s.stack := rfl
@[simp] theorem advancePc_sp : (advancePc s).sp = s.sp := rfl
@[simp] theorem advancePc_dt : (advancePc s).dt = s.dt := rfl
@[simp] theorem advancePc_st : (advancePc s).st = s.st := rfl
@[simp] theorem advancePc_disp : (advancePc s).disp = s.disp := rfl
@[simp] theorem advancePc_dchg : (advancePc s).dchg = s.dchg := rfl
@[simp] theorem advancePc_keys : (advancePc s).keys = s.keys := rfl
@[simp] theorem advancePc_phase : (advancePc s).phase = s.phase := rfl
@[simp] theorem advancePc_cfg : (advancePc s).cfg = s.cfg := rfl
@[simp] theorem advancePc_rnd : (advancePc s).rnd = s.rnd := rfl
@[simp] theorem advancePc_inputs : (advancePc s).inputs = s.inputs := rfl
@[simp] theorem advancePc_draws : (advancePc s).draws = s.draws := rfl

/-! ## rewindPc -/

@[simp] theorem rewindPc_v : (rewindPc s).v = s.v := rfl
@[simp] theorem rewindPc_idx : (rewindPc s).idx = s.idx := rfl
@[simp] theorem rewindPc_pc : (rewindPc s).pc = s.pc - 2 := rfl
@[simp] theorem rewindPc_mem : (rewindPc s).mem = s.mem := rfl
@[simp] theorem rewindPc_stack : (rewindPc s).stack = s.stack := rfl
@[simp] theorem rewindPc_sp : (rewindPc s).sp = s.sp := rfl
@[simp] theorem rewindPc_dt : (rewindPc s).dt = s.dt := rfl
@[simp] theorem rewindPc_st : (rewindPc s).st = s.st := rfl
@[simp] theorem rewindPc_disp : (rewindPc s).disp = s.disp := rfl
@[simp] theorem rewindPc_dchg : (rewindPc s).dchg = s.dchg := rfl
@[simp] theorem rewindPc_keys : (rewindPc s).keys = s.keys := rfl
@[simp] theorem rewindPc_phase : (rewindPc s).phase = s.phase := rfl
@[simp] theorem rewindPc_cfg : (rewindPc s).cfg = s.cfg := rfl
@[simp] theorem rewindPc_rnd : (rewindPc s).rnd = s.rnd := rfl
@[simp] theorem rewindPc_inputs : (rewindPc s).inputs = s.inputs := rfl
@[simp] theorem rewindPc_draws : (rewindPc s).draws = s.draws := rfl

/-! ## jumpTo -/

@[simp] theorem jumpTo_v (target : Word) : (jumpTo s target).v = s.v := rfl
@[simp] theorem jumpTo_idx (target : Word) : (jumpTo s target).idx = s.idx := rfl
@[simp] theorem jumpTo_pc (target : Word) : (jumpTo s target).pc = target := rfl
@[simp] theorem jumpTo_mem (target : Word) : (jumpTo s target).mem = s.mem := rfl
@[simp] theorem jumpTo_stack (target : Word) : (jumpTo s target).stack = s.stack := rfl
@[simp] theorem jumpTo_sp (target : Word) : (jumpTo s target).sp = s.sp := rfl
@[simp] theorem jumpTo_dt (target : Word) : (jumpTo s target).dt = s.dt := rfl
@[simp] theorem jumpTo_st (target : Word) : (jumpTo s target).st = s.st := rfl
@[simp] theorem jumpTo_disp (target : Word) : (jumpTo s target).disp = s.disp := rfl
@[simp] theorem jumpTo_dchg (target : Word) : (jumpTo s target).dchg = s.dchg := rfl
@[simp] theorem jumpTo_keys (target : Word) : (jumpTo s target).keys = s.keys := rfl
@[simp] theorem jumpTo_phase (target : Word) : (jumpTo s target).phase = s.phase := rfl
@[simp] theorem jumpTo_cfg (target : Word) : (jumpTo s target).cfg = s.cfg := rfl
@[simp] theorem jumpTo_rnd (target : Word) : (jumpTo s target).rnd = s.rnd := rfl
@[simp] theorem jumpTo_inputs (target : Word) : (jumpTo s target).inputs = s.inputs := rfl
@[simp] theorem jumpTo_draws (target : Word) : (jumpTo s target).draws = s.draws := rfl

/-! ## skipIf -/

@[simp] theorem skipIf_v (c : Bool) : (skipIf c s).v = s.v := rfl
@[simp] theorem skipIf_idx (c : Bool) : (skipIf c s).idx = s.idx := rfl
@[simp] theorem skipIf_pc (c : Bool) : (skipIf c s).pc = if c then s.pc + 2 else s.pc := rfl
@[simp] theorem skipIf_mem (c : Bool) : (skipIf c s).mem = s.mem := rfl
@[simp] theorem skipIf_stack (c : Bool) : (skipIf c s).stack = s.stack := rfl
@[simp] theorem skipIf_sp (c : Bool) : (skipIf c s).sp = s.sp := rfl
@[simp] theorem skipIf_dt (c : Bool) : (skipIf c s).dt = s.dt := rfl
@[simp] theorem skipIf_st (c : Bool) : (skipIf c s).st = s.st := rfl
@[simp] theorem skipIf_disp (c : Bool) : (skipIf c s).disp = s.disp := rfl
@[simp] theorem skipIf_dchg (c : Bool) : (skipIf c s).dchg = s.dchg := rfl
@[simp] theorem skipIf_keys (c : Bool) : (skipIf c s).keys = s.keys := rfl
@[simp] theorem skipIf_phase (c : Bool) : (skipIf c s).phase = s.phase := rfl
@[simp] theorem skipIf_cfg (c : Bool) : (skipIf c s).cfg = s.cfg := rfl
@[simp] theorem skipIf_rnd (c : Bool) : (skipIf c s).rnd = s.rnd := rfl
@[simp] theorem skipIf_inputs (c : Bool) : (skipIf c s).inputs = s.inputs := rfl
@[simp] theorem skipIf_draws (c : Bool) : (skipIf c s).draws = s.draws := rfl

/-! ## tickTimers -/

@[simp] theorem tickTimers_v : (tickTimers s).v = s.v := rfl
@[simp] theorem tickTimers_idx : (tickTimers s).idx = s.idx := rfl
@[simp] theorem tickTimers_pc : (tickTimers s).pc = s.pc := rfl
@[simp] theorem tickTimers_mem : (tickTimers s).mem = s.mem := rfl
@[simp] theorem tickTimers_stack : (tickTimers s).stack = s.stack := rfl
@[simp] theorem tickTimers_sp : (tickTimers s).sp = s.sp := rfl
@[simp] theorem tickTimers_dt : (tickTimers s).dt = decrement s.dt := rfl
@[simp] theorem tickTimers_st : (tickTimers s).st = decrement s.st := rfl
@[simp] theorem tickTimers_disp : (tickTimers s).disp = s.disp := rfl
@[simp] theorem tickTimers_dchg : (tickTimers s).dchg = s.dchg := rfl
@[simp] theorem tickTimers_keys : (tickTimers s).keys = s.keys := rfl
@[simp] theorem tickTimers_phase : (tickTimers s).phase = s.phase := rfl
@[simp] theorem tickTimers_cfg : (tickTimers s).cfg = s.cfg := rfl
@[simp] theorem tickTimers_rnd : (tickTimers s).rnd = s.rnd := rfl
@[simp] theorem tickTimers_inputs : (tickTimers s).inputs = s.inputs := rfl
@[simp] theorem tickTimers_draws : (tickTimers s).draws = s.draws := rfl

/-! ## beginStep -/

@[simp] theorem beginStep_v (keys : BitVec 16) (rnd : Byte) : (beginStep keys rnd s).v = s.v := rfl
@[simp] theorem beginStep_idx (keys : BitVec 16) (rnd : Byte) : (beginStep keys rnd s).idx = s.idx := rfl
@[simp] theorem beginStep_pc (keys : BitVec 16) (rnd : Byte) : (beginStep keys rnd s).pc = s.pc := rfl
@[simp] theorem beginStep_mem (keys : BitVec 16) (rnd : Byte) : (beginStep keys rnd s).mem = s.mem := rfl
@[simp] theorem beginStep_stack (keys : BitVec 16) (rnd : Byte) : (beginStep keys rnd s).stack = s.stack := rfl
@[simp] theorem beginStep_sp (keys : BitVec 16) (rnd : Byte) : (beginStep keys rnd s).sp = s.sp := rfl
@[simp] theorem beginStep_dt (keys : BitVec 16) (rnd : Byte) : (beginStep keys rnd s).dt = s.dt := rfl
@[simp] theorem beginStep_st (keys : BitVec 16) (rnd : Byte) : (beginStep keys rnd s).st = s.st := rfl
@[simp] theorem beginStep_disp (keys : BitVec 16) (rnd : Byte) : (beginStep keys rnd s).disp = s.disp := rfl
@[simp] theorem beginStep_dchg (keys : BitVec 16) (rnd : Byte) : (beginStep keys rnd s).dchg = false := rfl
@[simp] theorem beginStep_keys (keys : BitVec 16) (rnd : Byte) : (beginStep keys rnd s).keys = latchOfPort keys := rfl
@[simp] theorem beginStep_phase (keys : BitVec 16) (rnd : Byte) : (beginStep keys rnd s).phase = s.phase := rfl
@[simp] theorem beginStep_cfg (keys : BitVec 16) (rnd : Byte) : (beginStep keys rnd s).cfg = s.cfg := rfl
@[simp] theorem beginStep_rnd (keys : BitVec 16) (rnd : Byte) : (beginStep keys rnd s).rnd = rnd := rfl
@[simp] theorem beginStep_inputs (keys : BitVec 16) (rnd : Byte) : (beginStep keys rnd s).inputs = s.inputs := rfl
@[simp] theorem beginStep_draws (keys : BitVec 16) (rnd : Byte) : (beginStep keys rnd s).draws = s.draws := rfl

/-! ## setResultAndFlag -/

@[simp] theorem setResultAndFlag_idx (x : Nibble) (b : Byte) (c : Bool) : (setResultAndFlag s x b c).idx = s.idx := rfl
@[simp] theorem setResultAndFlag_pc (x : Nibble) (b : Byte) (c : Bool) : (setResultAndFlag s x b c).pc = s.pc := rfl
@[simp] theorem setResultAndFlag_mem (x : Nibble) (b : Byte) (c : Bool) : (setResultAndFlag s x b c).mem = s.mem := rfl
@[simp] theorem setResultAndFlag_stack (x : Nibble) (b : Byte) (c : Bool) : (setResultAndFlag s x b c).stack = s.stack := rfl
@[simp] theorem setResultAndFlag_sp (x : Nibble) (b : Byte) (c : Bool) : (setResultAndFlag s x b c).sp = s.sp := rfl
@[simp] theorem setResultAndFlag_dt (x : Nibble) (b : Byte) (c : Bool) : (setResultAndFlag s x b c).dt = s.dt := rfl
@[simp] theorem setResultAndFlag_st (x : Nibble) (b : Byte) (c : Bool) : (setResultAndFlag s x b c).st = s.st := rfl
@[simp] theorem setResultAndFlag_disp (x : Nibble) (b : Byte) (c : Bool) : (setResultAndFlag s x b c).disp = s.disp := rfl
@[simp] theorem setResultAndFlag_dchg (x : Nibble) (b : Byte) (c : Bool) : (setResultAndFlag s x b c).dchg = s.dchg := rfl
@[simp] theorem setResultAndFlag_keys (x : Nibble) (b : Byte) (c : Bool) : (setResultAndFlag s x b c).keys = s.keys := rfl
@[simp] theorem setResultAndFlag_phase (x : Nibble) (b : Byte) (c : Bool) : (setResultAndFlag s x b c).phase = s.phase := rfl
@[simp] theorem setResultAndFlag_cfg (x : Nibble) (b : Byte) (c : Bool) : (setResultAndFlag s x b c).cfg = s.cfg := rfl
@[simp] theorem setResultAndFlag_rnd (x : Nibble) (b : Byte) (c : Bool) : (setResultAndFlag s x b c).rnd = s.rnd := rfl
@[simp] theorem setResultAndFlag_inputs (x : Nibble) (b : Byte) (c : Bool) : (setResultAndFlag s x b c).inputs = s.inputs := rfl
@[simp] theorem setResultAndFlag_draws (x : Nibble) (b : Byte) (c : Bool) : (setResultAndFlag s x b c).draws = s.draws := rfl

/-! ## enterFault: what R113 still fixes after a fault -/

@[simp] theorem enterFault_phase (c : Fault) : (enterFault c s).phase = .faulted c := rfl
@[simp] theorem enterFault_cfg (c : Fault) : (enterFault c s).cfg = s.cfg := rfl
@[simp] theorem enterFault_rnd (c : Fault) : (enterFault c s).rnd = s.rnd := rfl
@[simp] theorem enterFault_inputs (c : Fault) : (enterFault c s).inputs = s.inputs := rfl
@[simp] theorem enterFault_mem (c : Fault) :
    (enterFault c s).mem = Memory.ofBytes s.cfg.font (Config.afterFaultByte s.draws) := rfl
@[simp] theorem enterFault_isFaulted (c : Fault) : isFaulted (enterFault c s) = true := rfl

end Sys2Proof.Machine
end

