-- ==== Sys2Proof/Laws/Ops.lean ====
section
/-! SUPPORT. One lemma for each shared operation that says everything it can do; proofs cite it and do not unfold the
operation. -/

namespace Sys2Proof.Machine

/-! ## Registers and flags -/

theorem getV_setV (s : State) (r q : Nibble) (b : Byte) :
    getV (setV s r b) q = if r = q then b else getV s q := by
  by_cases h : r = q
  · subst h
    simp [getV, setV]
  · have hn : r.toNat ≠ q.toNat := fun e => h (BitVec.eq_of_toNat_eq e)
    simp [getV, setV, h, hn]

@[simp] theorem getV_setV_same (s : State) (r : Nibble) (b : Byte) : getV (setV s r b) r = b := by
  simp [getV_setV]

theorem getV_setV_other (s : State) (r q : Nibble) (b : Byte) (h : r ≠ q) : getV (setV s r b) q = getV s q := by
  simp [getV_setV, h]

/-- Two states with the same register file read the same registers. -/
theorem getV_congr (s t : State) (h : t.v = s.v) (r : Nibble) : getV t r = getV s r := by
  simp [getV, h]

/-- Result and flag: VF holds the flag, another destination the result, and the rest is as before (R12, R82). -/
theorem getV_setResultAndFlag (s : State) (x q : Nibble) (b : Byte) (c : Bool) :
    getV (setResultAndFlag s x b c) q = if vf = q then flagByte c else if x = q then b else getV s q := by
  simp [setResultAndFlag, getV_setV]

/-! ## Memory and the state -/

/-- Two states with the same memory and parameters read the same bytes. -/
theorem memByte_congr (s t : State) (hm : t.mem = s.mem) (hc : t.cfg = s.cfg) (a : Nat) :
    memByte t a = memByte s a := by
  simp [memByte, hm, hc]

/-! ## The stack -/

/-- Everything a push can do (R74, R108). -/
theorem pushPc_cases (s : State) :
    (∃ h : s.sp.val < 16, pushPc s =
      .ok { s with stack := s.stack.set s.sp.val s.pc h, sp := ⟨s.sp.val + 1, by omega⟩ }) ∨
    (s.sp.val = 16 ∧ pushPc s = .error .stackOverflow) := by
  unfold pushPc
  split
  · exact .inl ⟨‹_›, rfl⟩
  · exact .inr ⟨by omega, rfl⟩

/-- Everything a pop can do (R72, R109). -/
theorem popPc_cases (s : State) :
    (∃ h : 0 < s.sp.val, popPc s =
      .ok { s with sp := ⟨s.sp.val - 1, by omega⟩, pc := s.stack[s.sp.val - 1]'(by omega) }) ∨
    (s.sp.val = 0 ∧ popPc s = .error .stackUnderflow) := by
  unfold popPc
  split
  · exact .inl ⟨‹_›, rfl⟩
  · exact .inr ⟨by omega, rfl⟩

/-! ## The keys -/

/-- Everything a key index can be (R80, R110). -/
theorem keyIndex_cases (s : State) (x : Nibble) :
    (∃ k : Fin 16, (getV s x).toNat = k.val ∧ keyIndex s x = .ok k) ∨
    (16 ≤ (getV s x).toNat ∧ keyIndex s x = .error .keyIndexRange) := by
  unfold keyIndex
  split
  · exact .inl ⟨⟨(getV s x).toNat, ‹_›⟩, rfl, rfl⟩
  · exact .inr ⟨by omega, rfl⟩

/-- The latch of a port holds bit k for key k (R51). -/
theorem latchOfPort_getElem (keys : BitVec 16) (k : Fin 16) : (latchOfPort keys)[k.val] = keys.getLsbD k.val := by
  fin_cases k <;> rfl

/-- The scan over any keys, in order: the last pressed one, or what was found before (R103). -/
theorem scan_eq_getLast (s : State) (ks : List (Fin 16)) (found : Option (Fin 16)) :
    ks.foldl (fun found k => if keyDown s k then some k else found) found =
      ((ks.filter (keyDown s)).getLast?).or found := by
  induction ks generalizing found with
  | nil => simp
  | cons k ks ih =>
    rw [List.foldl_cons, ih]
    by_cases h : keyDown s k = true
    · cases hl : (ks.filter (keyDown s)) with
      | nil => simp [h, hl]
      | cons j js =>
        obtain ⟨last, hlast⟩ : ∃ last, (j :: js).getLast? = some last := ⟨_, List.getLast?_eq_some_getLast (by simp)⟩
        simp [h, hl, hlast]
    · simp [h]

/-! ## The display -/

theorem getLsbD_setCell (row : BitVec 64) (X X' : Fin 64) (b : Bool) :
    (setCell row X b).getLsbD X'.val = if X = X' then b else row.getLsbD X'.val := by
  by_cases hX : X = X'
  · subst hX
    cases b <;> simp [setCell]
  · have : X'.val ≠ X.val := fun e => hX (Fin.ext e.symm)
    cases b <;> simp [setCell, hX, this]

theorem pixel_setPixel (d : Display) (X X' : Fin 64) (Y Y' : Fin 32) (b : Bool) :
    pixel (setPixel d X Y b) X' Y' = if X = X' ∧ Y = Y' then b else pixel d X' Y' := by
  unfold pixel setPixel
  by_cases hY : Y = Y'
  · subst hY
    rw [Vector.getElem_set_self, getLsbD_setCell]
    simp
  · have : Y.val ≠ Y'.val := fun e => hY (Fin.ext e)
    simp [hY, this]

/-- Two displays with the same cells are equal. -/
theorem display_ext (d e : Display) (h : ∀ X Y, pixel d X Y = pixel e X Y) : d = e := by
  apply Vector.ext
  intro Y hY
  apply BitVec.eq_of_getLsbD_eq
  intro X hX
  exact h ⟨X, hX⟩ ⟨Y, hY⟩

@[simp] theorem pixel_blankDisplay (X : Fin 64) (Y : Fin 32) : pixel blankDisplay X Y = false := by
  simp [pixel, blankDisplay]

/-! ## The timers -/

/-- A decrement is the subtraction of 1 that stops at 0 (R119). -/
theorem decrement_toNat (t : Byte) : (decrement t).toNat = t.toNat - 1 := by
  unfold decrement
  split
  · rename_i h
    simp [h]
  · rename_i h
    have : t.toNat ≠ 0 := fun e => h (BitVec.eq_of_toNat_eq (by simpa using e))
    have := t.isLt
    rw [BitVec.toNat_sub]
    simp
    omega

/-! ## Faults -/

@[simp] theorem settleState_ok (s t : State) : settleState s (.ok t) = t := rfl

@[simp] theorem settleState_error (s : State) (c : Fault) : settleState s (.error c) = enterFault c s := rfl

theorem settle_eq_next (s t : State) (r : Except Fault State) (h : r = .ok t) : settle s r = .next t := by
  rw [h]; rfl

theorem settle_eq_fault (s : State) (r : Except Fault State) (c : Fault) (h : r = .error c) :
    settle s r = .next (enterFault c s) := by
  rw [h]; rfl

@[simp] theorem isFaulted_of_loaded (s : State) (h : s.phase = .loaded) : isFaulted s = false := by
  simp [isFaulted, h]

theorem isFaulted_congr (s t : State) (h : t.phase = s.phase) : isFaulted t = isFaulted s := by
  simp [isFaulted, h]

theorem isFaulted_iff (s : State) : isFaulted s = true ↔ ∃ c, s.phase = .faulted c := by
  unfold isFaulted
  cases s.phase <;> simp

end Sys2Proof.Machine
end

