-- ==== Sys2Proof/Laws/Loops.lean ====
section
/-! SUPPORT. What the loops of LD [I], Vx and LD Vx, [I] can do, said once for any number of rounds: all the accesses
are in memory and all of them happen, or the first one outside raises MEMORY_RANGE (R36, R37). -/

namespace Sys2Proof.Machine

/-- A loop over one more round is the loop and then the round. -/
theorem foldlM_range_succ {α : Type} (f : α → Nat → Except Fault α) (a : α) (n : Nat) :
    (List.range (n + 1)).foldlM f a = ((List.range n).foldlM f a).bind (fun b => f b n) := by
  rw [List.range_succ, List.foldlM_append]
  simp only [List.foldlM_cons, List.foldlM_nil]
  cases (List.range n).foldlM f a with
  | error e => rfl
  | ok b => simp [bind, Except.bind, pure, Except.pure]; cases f b n <;> rfl

/-- `n` bytes stored from `base` on: memory alone changes, exactly in the `n` bytes, and stays canonical; or some byte
is outside memory. -/
theorem storeLoop_cases (s : State) (base : Nat) (f : Nat → Byte) (n : Nat) :
    (∃ m : Memory, (List.range n).foldlM (fun t i => memWrite t (base + i) (f i)) s = .ok { s with mem := m } ∧
      (n = 0 ∨ base + n ≤ 0x1000) ∧
      (∀ a, Memory.read s.cfg.font m a = if base ≤ a ∧ a < base + n then f (a - base) else memByte s a) ∧
      (Memory.wf s.cfg.font s.mem → Memory.wf s.cfg.font m)) ∨
    (n ≠ 0 ∧ 0x1000 < base + n ∧
      (List.range n).foldlM (fun t i => memWrite t (base + i) (f i)) s = .error .memoryRange) := by
  induction n with
  | zero =>
    refine .inl ⟨s.mem, rfl, .inl rfl, fun a => ?_, id⟩
    rw [if_neg (by omega)]
    rfl
  | succ n ih =>
    rw [foldlM_range_succ]
    rcases ih with ⟨m, e, hn, hread, hwf⟩ | ⟨h0, hn, e⟩
    · rw [e]
      by_cases h : base + n ≤ 0xFFF
      · refine .inl ⟨Memory.write s.cfg.font m (base + n) (f n), by simp [Except.bind, memWrite, h], .inr (by omega), ?_,
          fun w => Memory.wf_write _ _ _ _ (hwf w) h⟩
        intro a
        rw [Memory.read_write, hread]
        by_cases ha : base + n = a
        · subst ha
          simp
        · rw [if_neg ha]
          by_cases hr : base ≤ a ∧ a < base + n
          · rw [if_pos hr, if_pos ⟨hr.1, by omega⟩]
          · rw [if_neg hr, if_neg (by omega)]
      · exact .inr ⟨by omega, by omega, by simp [Except.bind, memWrite, h]⟩
    · exact .inr ⟨by omega, by omega, by rw [e]; rfl⟩

/-- `n` registers (at most sixteen) loaded from `base` on, in the state `s0` whose memory is read: V alone changes,
exactly in the `n` registers; or some byte is outside memory. -/
theorem loadLoop_cases (s : State) (base n : Nat) (hn16 : n ≤ 16) :
    (∃ v : RegFile, (List.range n).foldlM
        (fun t i => do let b ← memRead s (base + i); pure (setV t (loopReg i) b)) s = .ok { s with v := v } ∧
      (n = 0 ∨ base + n ≤ 0x1000) ∧
      (∀ q : Nibble, v[q.toNat]'(q.isLt) = if q.toNat < n then memByte s (base + q.toNat) else getV s q)) ∨
    (n ≠ 0 ∧ 0x1000 < base + n ∧ (List.range n).foldlM
        (fun t i => do let b ← memRead s (base + i); pure (setV t (loopReg i) b)) s = .error .memoryRange) := by
  induction n with
  | zero => exact .inl ⟨s.v, rfl, .inl rfl, fun q => by simp [getV]⟩
  | succ n ih =>
    rw [foldlM_range_succ]
    rcases ih (by omega) with ⟨v, e, hn, hv⟩ | ⟨h0, hn, e⟩
    · rw [e]
      by_cases h : base + n ≤ 0xFFF
      · refine .inl ⟨v.set n (memByte s (base + n)), ?_, .inr (by omega), ?_⟩
        · have hl : (loopReg n).toNat = n := by
            simp [loopReg]
            omega
          simp [Except.bind, memRead_eq_ok _ _ h, bind, pure, Except.pure, setV, hl]
        · intro q
          by_cases hq : n = q.toNat
          · subst hq
            simp
          · rw [Vector.getElem_set_ne _ _ hq, hv]
            by_cases hlt : q.toNat < n
            · rw [if_pos hlt, if_pos (by omega)]
            · rw [if_neg hlt, if_neg (by omega)]
      · refine .inr ⟨by omega, by omega, ?_⟩
        simp [Except.bind, memRead_eq_error _ _ (by omega : 0xFFF < base + n), bind]
    · exact .inr ⟨by omega, by omega, by rw [e]; rfl⟩

end Sys2Proof.Machine
end

