-- ==== Sys2Proof/Laws/Drawing.lean ====
section
/-! SUPPORT. What the loops of DRW can do (R70): a cell is visited at most once, so the drawn display is the old one
XOR the sprite, and the collision flag says that a sprite bit 1 met a lit cell. -/

namespace Sys2Proof.Machine

/-- The column of a sprite at `x0` that lies over the cell column `X`, 0 to 63. -/
def spriteCol (x0 : Byte) (X : Fin 64) : Nat := (X.val + 64 - x0.toNat % 64) % 64

/-- The row of a sprite at `y0` that lies over the cell row `Y`, 0 to 31. -/
def spriteRow (y0 : Byte) (Y : Fin 32) : Nat := (Y.val + 32 - y0.toNat % 32) % 32

theorem spriteCol_eq (x0 : Byte) (X : Fin 64) (col : Nat) (h : col < 64) :
    cellX x0 col = X ↔ spriteCol x0 X = col := by
  have := X.isLt
  rw [Fin.ext_iff]
  simp only [cellX, Fin.ofNat, spriteCol]
  omega

theorem spriteRow_eq (y0 : Byte) (Y : Fin 32) (row : Nat) (h : row < 32) :
    cellY y0 row = Y ↔ spriteRow y0 Y = row := by
  have := Y.isLt
  rw [Fin.ext_iff]
  simp only [cellY, Fin.ofNat, spriteRow]
  omega

/-- The sprite bit of one row over a cell, in the first `m` columns. -/
def rowBit (x0 y0 : Byte) (row m : Nat) (b : Byte) (X : Fin 64) (Y : Fin 32) : Bool :=
  decide (spriteRow y0 Y = row) && decide (spriteCol x0 X < m) && b.getLsbD (7 - spriteCol x0 X)

/-- The first `m` columns of a row: the cells are XORed with the row's bits, and the flag collects the collisions. -/
theorem drawCols_spec (x0 y0 : Byte) (row : Nat) (b : Byte) (acc : Display × Bool) (m : Nat) (hr : row < 32)
    (hm : m ≤ 8) :
    (∀ X Y, pixel ((List.range m).foldl (fun acc col => drawBit x0 y0 row col (b.getLsbD (7 - col)) acc) acc).1 X Y
      = (pixel acc.1 X Y ^^ rowBit x0 y0 row m b X Y)) ∧
    (((List.range m).foldl (fun acc col => drawBit x0 y0 row col (b.getLsbD (7 - col)) acc) acc).2 = true ↔
      acc.2 = true ∨ ∃ X Y, rowBit x0 y0 row m b X Y = true ∧ pixel acc.1 X Y = true) := by
  induction m with
  | zero => simp [rowBit]
  | succ m ih =>
    obtain ⟨ihp, ihc⟩ := ih (by omega)
    rw [List.range_succ, List.foldl_append, List.foldl_cons, List.foldl_nil]
    generalize (List.range m).foldl (fun acc col => drawBit x0 y0 row col (b.getLsbD (7 - col)) acc) acc = d at ihp ihc
    have hcol : ∀ X, cellX x0 m = X ↔ spriteCol x0 X = m := fun X => spriteCol_eq x0 X m (by omega)
    have hrow : ∀ Y, cellY y0 row = Y ↔ spriteRow y0 Y = row := fun Y => spriteRow_eq y0 Y row hr
    have hX : spriteCol x0 (cellX x0 m) = m := (hcol _).mp rfl
    have hY : spriteRow y0 (cellY y0 row) = row := (hrow _).mp rfl
    have hold : pixel d.1 (cellX x0 m) (cellY y0 row)
        = pixel acc.1 (cellX x0 m) (cellY y0 row) := by
      rw [ihp]
      simp [rowBit, hX]
    constructor
    · intro X Y
      simp only [drawBit, pixel_setPixel]
      by_cases h : cellX x0 m = X ∧ cellY y0 row = Y
      · obtain ⟨rfl, rfl⟩ := h
        rw [if_pos ⟨rfl, rfl⟩, hold]
        simp [rowBit, hX, hY]
      · rw [if_neg h, ihp]
        congr 1
        rw [hcol, hrow] at h
        unfold rowBit
        by_cases h1 : spriteRow y0 Y = row
        · have h2 : spriteCol x0 X ≠ m := fun e => h ⟨e, h1⟩
          have h3 : (spriteCol x0 X < m + 1) ↔ (spriteCol x0 X < m) := by omega
          simp [h3]
        · simp [h1]
    · simp only [drawBit, Bool.or_eq_true, Bool.and_eq_true, ihc, hold]
      constructor
      · rintro ((h | ⟨X, Y, h, hp⟩) | ⟨hb, hp⟩)
        · exact .inl h
        · refine .inr ⟨X, Y, ?_, hp⟩
          simp only [rowBit, Bool.and_eq_true, decide_eq_true_eq] at h ⊢
          exact ⟨⟨h.1.1, by omega⟩, h.2⟩
        · refine .inr ⟨_, _, ?_, hp⟩
          simp [rowBit, hX, hY, hb]
      · rintro (h | ⟨X, Y, h, hp⟩)
        · exact .inl (.inl h)
        · simp only [rowBit, Bool.and_eq_true, decide_eq_true_eq] at h
          by_cases hm' : spriteCol x0 X = m
          · refine .inr ⟨?_, ?_⟩
            · rw [← hm']
              exact h.2
            · rw [(hcol X).mpr hm', (hrow Y).mpr h.1.1]
              exact hp
          · refine .inl (.inr ⟨X, Y, ?_, hp⟩)
            simp only [rowBit, Bool.and_eq_true, decide_eq_true_eq]
            exact ⟨⟨h.1.1, by omega⟩, h.2⟩

/-- The bit of the first `n` rows of the sprite at I over a cell. -/
def spriteRowsBit (s : State) (x0 y0 : Byte) (n : Nat) (X : Fin 64) (Y : Fin 32) : Bool :=
  decide (spriteCol x0 X < 8) && decide (spriteRow y0 Y < n)
    && (memByte s (indexAddr s (spriteRow y0 Y))).getLsbD (7 - spriteCol x0 X)

/-- Everything the rows of a draw can do (R70): the XOR of the sprite and the collision flag, or MEMORY_RANGE. -/
theorem drawRows_cases (s : State) (x0 y0 : Byte) (n : Nat) (hn : n ≤ 32) :
    (∃ d : Display × Bool, drawRows s x0 y0 n = .ok d ∧ (n = 0 ∨ indexAddr s (n - 1) ≤ 0xFFF) ∧
      (∀ X Y, pixel d.1 X Y = (pixel s.disp X Y ^^ spriteRowsBit s x0 y0 n X Y)) ∧
      (d.2 = true ↔ ∃ X Y, spriteRowsBit s x0 y0 n X Y = true ∧ pixel s.disp X Y = true)) ∨
    (n ≠ 0 ∧ 0xFFF < indexAddr s (n - 1) ∧ drawRows s x0 y0 n = .error .memoryRange) := by
  induction n with
  | zero => exact .inl ⟨(s.disp, false), rfl, .inl rfl, by simp [spriteRowsBit], by simp [spriteRowsBit]⟩
  | succ n ih =>
    unfold drawRows at ih ⊢
    rw [foldlM_range_succ]
    rcases ih (by omega) with ⟨d, e, hin, hp, hc⟩ | ⟨h0, hout, e⟩
    · rw [e]
      by_cases h : indexAddr s n ≤ 0xFFF
      · refine .inl ⟨drawRow x0 y0 n (memByte s (indexAddr s n)) d, ?_, .inr h, ?_⟩
        · simp [Except.bind, memRead_eq_ok _ _ h, bind, pure, Except.pure]
        · obtain ⟨rp, rc⟩ := drawCols_spec x0 y0 n (memByte s (indexAddr s n)) d 8 (by omega) (by omega)
          have hstep : ∀ X Y, spriteRowsBit s x0 y0 (n + 1) X Y =
              (spriteRowsBit s x0 y0 n X Y ^^ rowBit x0 y0 n 8 (memByte s (indexAddr s n)) X Y) := by
            intro X Y
            unfold spriteRowsBit rowBit
            by_cases h1 : spriteRow y0 Y = n
            · simp [h1]
            · have h3 : (spriteRow y0 Y < n + 1) ↔ (spriteRow y0 Y < n) := by omega
              simp [h1, h3]
          have hone : ∀ X Y, rowBit x0 y0 n 8 (memByte s (indexAddr s n)) X Y = true →
              spriteRowsBit s x0 y0 n X Y = false := by
            intro X Y hb
            simp only [rowBit, Bool.and_eq_true, decide_eq_true_eq] at hb
            simp [spriteRowsBit, hb.1.1]
          constructor
          · intro X Y
            unfold drawRow
            rw [rp, hp, hstep, Bool.xor_assoc]
          · unfold drawRow
            rw [rc, hc]
            constructor
            · rintro (⟨X, Y, hb, hl⟩ | ⟨X, Y, hb, hl⟩)
              · refine ⟨X, Y, ?_, hl⟩
                rw [hstep, hb]
                cases hr : rowBit x0 y0 n 8 (memByte s (indexAddr s n)) X Y with
                | false => rfl
                | true => rw [hone X Y hr] at hb; cases hb
              · refine ⟨X, Y, ?_, ?_⟩
                · rw [hstep, hb, hone X Y hb]; rfl
                · rw [hp, hone X Y hb] at hl
                  simpa using hl
            · rintro ⟨X, Y, hb, hl⟩
              rw [hstep] at hb
              cases hr : rowBit x0 y0 n 8 (memByte s (indexAddr s n)) X Y with
              | false => rw [hr] at hb; exact .inl ⟨X, Y, by simpa using hb, hl⟩
              | true =>
                refine .inr ⟨X, Y, hr, ?_⟩
                rw [hp, hone X Y hr, hl]; rfl
      · refine .inr ⟨by omega, by simpa using h, ?_⟩
        simp [Except.bind, memRead_eq_error _ _ (by omega : 0xFFF < indexAddr s n), bind]
    · refine .inr ⟨by omega, ?_, by rw [e]; rfl⟩
      unfold indexAddr at *
      omega

end Sys2Proof.Machine
end

