-- ==== Sys2Proof/Laws/Exec.lean ====
section
/-! SUPPORT. Everything each instruction that may fault can do: one inversion lemma each, a next state written out or
the fault taken. The other instructions answer one next state by definition. -/

namespace Sys2Proof.Machine

/-- RET (R72). -/
theorem execRet_cases (u : Nibble) (s : State) :
    (∃ h : 0 < s.sp.val, exec (.ret u) s =
      .next { s with sp := ⟨s.sp.val - 1, by omega⟩, pc := s.stack[s.sp.val - 1]'(by omega) }) ∨
    (s.sp.val = 0 ∧ exec (.ret u) s = .next (enterFault .stackUnderflow s)) := by
  rcases popPc_cases s with ⟨h, e⟩ | ⟨h, e⟩
  · exact .inl ⟨h, settle_eq_next _ _ _ e⟩
  · exact .inr ⟨h, settle_eq_fault _ _ _ e⟩

/-- CALL (R74). -/
theorem execCall_cases (nnn : Addr) (s : State) :
    (∃ h : s.sp.val < 16, exec (.call nnn) s =
      .next { s with stack := s.stack.set s.sp.val s.pc h, sp := ⟨s.sp.val + 1, by omega⟩, pc := addrWord nnn }) ∨
    (s.sp.val = 16 ∧ exec (.call nnn) s = .next (enterFault .stackOverflow s)) := by
  rcases pushPc_cases s with ⟨h, e⟩ | ⟨h, e⟩
  · exact .inl ⟨h, settle_eq_next _ _ _ (by rw [e]; rfl)⟩
  · exact .inr ⟨h, settle_eq_fault _ _ _ (by rw [e]; rfl)⟩

/-- SKP (R80). -/
theorem execSkp_cases (x : Nibble) (s : State) :
    (∃ k : Fin 16, (getV s x).toNat = k.val ∧ exec (.skp x) s = .next (skipIf (keyDown s k) s)) ∨
    (16 ≤ (getV s x).toNat ∧ exec (.skp x) s = .next (enterFault .keyIndexRange s)) := by
  rcases keyIndex_cases s x with ⟨k, hk, e⟩ | ⟨h, e⟩
  · exact .inl ⟨k, hk, settle_eq_next _ _ _ (by rw [e]; rfl)⟩
  · exact .inr ⟨h, settle_eq_fault _ _ _ (by rw [e]; rfl)⟩

/-- SKNP (R81). -/
theorem execSknp_cases (x : Nibble) (s : State) :
    (∃ k : Fin 16, (getV s x).toNat = k.val ∧ exec (.sknp x) s = .next (skipIf (!keyDown s k) s)) ∨
    (16 ≤ (getV s x).toNat ∧ exec (.sknp x) s = .next (enterFault .keyIndexRange s)) := by
  rcases keyIndex_cases s x with ⟨k, hk, e⟩ | ⟨h, e⟩
  · exact .inl ⟨k, hk, settle_eq_next _ _ _ (by rw [e]; rfl)⟩
  · exact .inr ⟨h, settle_eq_fault _ _ _ (by rw [e]; rfl)⟩

/-- DRW (R70). -/
theorem execDrw_cases (x y n : Nibble) (s : State) :
    (∃ d : Display × Bool,
      exec (.drw x y n) s = .next { setV { s with disp := d.1 } vf (flagByte d.2) with dchg := true } ∧
      SpriteInMemory s n ∧ (∀ X Y, pixel d.1 X Y = (pixel s.disp X Y ^^ spriteBit s x y n X Y)) ∧
      (d.2 = true ↔ Collides s x y n)) ∨
    (¬ SpriteInMemory s n ∧ exec (.drw x y n) s = .next (enterFault .memoryRange s)) := by
  have hn := n.isLt
  have hz : n = 0x0#4 ↔ n.toNat = 0 := ⟨fun h => by simp [h], fun h => BitVec.eq_of_toNat_eq h⟩
  rcases drawRows_cases s (getV s x) (getV s y) n.toNat (by omega) with ⟨d, e, hin, hp, hc⟩ | ⟨h0, hout, e⟩
  · exact .inl ⟨d, settle_eq_next _ _ _ (by rw [e]; rfl), by rwa [SpriteInMemory, hz], hp, hc⟩
  · exact .inr ⟨by rw [SpriteInMemory, hz]; omega, settle_eq_fault _ _ _ (by rw [e]; rfl)⟩

/-- Memory with the three digits of Vx at I, I+1 and I+2. -/
def bcdMemory (x : Nibble) (s : State) : Memory :=
  Memory.writeAll s.cfg.font s.mem (indexAddr s 0) [hundreds (getV s x), tens (getV s x), ones (getV s x)]

/-- LD B (R99). -/
theorem execLdB_cases (x : Nibble) (s : State) :
    (indexAddr s 2 ≤ 0xFFF ∧ exec (.ldB x) s = .next
      { s with mem := bcdMemory x s }) ∨
    (0xFFF < indexAddr s 2 ∧ exec (.ldB x) s = .next (enterFault .memoryRange s)) := by
  by_cases h2 : indexAddr s 2 ≤ 0xFFF
  · have h0 : indexAddr s 0 ≤ 0xFFF := by unfold indexAddr at *; omega
    have h1 : indexAddr s 1 ≤ 0xFFF := by unfold indexAddr at *; omega
    refine .inl ⟨h2, settle_eq_next _ _ _ ?_⟩
    simp only [memWrite, h0, h1, h2, if_true, bind, Except.bind]
    rfl
  · refine .inr ⟨by omega, settle_eq_fault _ _ _ ?_⟩
    by_cases h1 : indexAddr s 1 ≤ 0xFFF
    · have h0 : indexAddr s 0 ≤ 0xFFF := by unfold indexAddr at *; omega
      simp only [memWrite, h0, h1, h2, if_true, if_false, bind, Except.bind]
    · by_cases h0 : indexAddr s 0 ≤ 0xFFF
      · simp only [memWrite, h0, h1, if_true, if_false, bind, Except.bind]
      · simp only [memWrite, h0, if_false, bind, Except.bind]

/-- LD [I], Vx (R100). -/
theorem execDump_cases (x : Nibble) (s : State) :
    (∃ m : Memory, exec (.dump x) s = .next { s with mem := m } ∧ indexAddr s x.toNat ≤ 0xFFF ∧
      (∀ q : Nibble, q ≤ x → Memory.read s.cfg.font m (indexAddr s q.toNat) = getV s q) ∧
      (∀ a, a < indexAddr s 0 ∨ indexAddr s x.toNat < a → Memory.read s.cfg.font m a = memByte s a) ∧
      (Memory.wf s.cfg.font s.mem → Memory.wf s.cfg.font m)) ∨
    (0xFFF < indexAddr s x.toNat ∧ exec (.dump x) s = .next (enterFault .memoryRange s)) := by
  rcases storeLoop_cases s s.idx.toNat (fun i => getV s (loopReg i)) (x.toNat + 1) with
    ⟨m, e, hn, hr, hwf⟩ | ⟨_, hn, e⟩
  · refine .inl ⟨m, settle_eq_next _ _ _ e, by unfold indexAddr; omega, ?_, ?_, hwf⟩
    · intro q hq
      have hq' : q.toNat ≤ x.toNat := hq
      have hl : loopReg (s.idx.toNat + q.toNat - s.idx.toNat) = q := by
        apply BitVec.eq_of_toNat_eq
        simp [loopReg]
      unfold indexAddr
      rw [hr, if_pos (by omega), hl]
    · intro a ha
      unfold indexAddr at ha
      rw [hr, if_neg (by omega)]
  · exact .inr ⟨by unfold indexAddr; omega, settle_eq_fault _ _ _ e⟩

/-- LD Vx, [I] (R101). -/
theorem execLoad_cases (x : Nibble) (s : State) :
    (∃ v : RegFile, exec (.load x) s = .next { s with v := v } ∧ indexAddr s x.toNat ≤ 0xFFF ∧
      (∀ q : Nibble, q ≤ x → v[q.toNat]'(q.isLt) = memByte s (indexAddr s q.toNat)) ∧
      (∀ q : Nibble, x < q → v[q.toNat]'(q.isLt) = getV s q)) ∨
    (0xFFF < indexAddr s x.toNat ∧ exec (.load x) s = .next (enterFault .memoryRange s)) := by
  have hx := x.isLt
  rcases loadLoop_cases s s.idx.toNat (x.toNat + 1) (by omega) with ⟨v, e, hn, hv⟩ | ⟨_, hn, e⟩
  · refine .inl ⟨v, settle_eq_next _ _ _ e, by unfold indexAddr; omega, ?_, ?_⟩
    · intro q hq
      have hq' : q.toNat ≤ x.toNat := hq
      rw [hv, if_pos (by omega)]
      rfl
    · intro q hq
      have hq' : x.toNat < q.toNat := hq
      rw [hv, if_neg (by omega)]
  · exact .inr ⟨by unfold indexAddr; omega, settle_eq_fault _ _ _ e⟩

end Sys2Proof.Machine
end

