-- ==== Sys2Proof/Laws/Fields.lean ====
section
/-! SUPPORT. The fields of a word built from its fields (30_encoding.md R48), what a mask of the opcode map leaves of
it, and that a word is its four nibbles. -/

namespace Sys2Proof

/-! ## Bit vectors in two parts -/

theorem extract_high (n m : Nat) (f : BitVec n) (a : BitVec m) (s l : Nat) :
    (f ++ a).extractLsb' (m + s) l = f.extractLsb' s l := by
  apply BitVec.eq_of_getLsbD_eq
  intro i h
  simp [BitVec.getLsbD_append, h, Nat.add_assoc]

theorem extract_low (n m : Nat) (f : BitVec n) (a : BitVec m) (s l : Nat) (h : s + l ≤ m) :
    (f ++ a).extractLsb' s l = a.extractLsb' s l := by
  apply BitVec.eq_of_getLsbD_eq
  intro i hi
  have : s + i < m := by omega
  simp [BitVec.getLsbD_append, hi, this]

theorem extract_all (n : Nat) (a : BitVec n) : a.extractLsb' 0 n = a := by simp

theorem and_parts (n m : Nat) (f g : BitVec n) (a b : BitVec m) :
    (f ++ a) &&& (g ++ b) = (f &&& g) ++ (a &&& b) := by
  apply BitVec.eq_of_getLsbD_eq
  intro i _
  by_cases h : i < m <;> simp [BitVec.getLsbD_append, h]

/-! ## The fields of the three layouts -/

@[simp] theorem fieldFamily_wordA (f : Nibble) (nnn : Addr) : fieldFamily (wordA f nnn) = f :=
  (extract_high 4 12 f nnn 0 4).trans (extract_all 4 f)

@[simp] theorem fieldNnn_wordA (f : Nibble) (nnn : Addr) : fieldNnn (wordA f nnn) = nnn :=
  (extract_low 4 12 f nnn 0 12 (by decide)).trans (extract_all 12 nnn)

@[simp] theorem fieldKk_wordA (f : Nibble) (nnn : Addr) : fieldKk (wordA f nnn) = nnn.extractLsb' 0 8 :=
  extract_low 4 12 f nnn 0 8 (by decide)

@[simp] theorem fieldFamily_wordXK (f x : Nibble) (kk : Byte) : fieldFamily (wordXK f x kk) = f :=
  (extract_high 8 8 (f ++ x) kk 4 4).trans ((extract_high 4 4 f x 0 4).trans (extract_all 4 f))

@[simp] theorem fieldX_wordXK (f x : Nibble) (kk : Byte) : fieldX (wordXK f x kk) = x :=
  (extract_high 8 8 (f ++ x) kk 0 4).trans ((extract_low 4 4 f x 0 4 (by decide)).trans (extract_all 4 x))

@[simp] theorem fieldKk_wordXK (f x : Nibble) (kk : Byte) : fieldKk (wordXK f x kk) = kk :=
  (extract_low 8 8 (f ++ x) kk 0 8 (by decide)).trans (extract_all 8 kk)

@[simp] theorem fieldFamily_wordXYN (f x y n : Nibble) : fieldFamily (wordXYN f x y n) = f :=
  (extract_high 12 4 (f ++ x ++ y) n 8 4).trans
    ((extract_high 8 4 (f ++ x) y 4 4).trans ((extract_high 4 4 f x 0 4).trans (extract_all 4 f)))

@[simp] theorem fieldX_wordXYN (f x y n : Nibble) : fieldX (wordXYN f x y n) = x :=
  (extract_high 12 4 (f ++ x ++ y) n 4 4).trans
    ((extract_high 8 4 (f ++ x) y 0 4).trans ((extract_low 4 4 f x 0 4 (by decide)).trans (extract_all 4 x)))

@[simp] theorem fieldY_wordXYN (f x y n : Nibble) : fieldY (wordXYN f x y n) = y :=
  (extract_high 12 4 (f ++ x ++ y) n 0 4).trans
    ((extract_low 8 4 (f ++ x) y 0 4 (by decide)).trans (extract_all 4 y))

@[simp] theorem fieldN_wordXYN (f x y n : Nibble) : fieldN (wordXYN f x y n) = n :=
  (extract_low 12 4 (f ++ x ++ y) n 0 4 (by decide)).trans (extract_all 4 n)

/-! ## A word is its fields -/

theorem word_eq_of_getLsbD (a b : Word) (h : ∀ i, i < 16 → a.getLsbD i = b.getLsbD i) : a = b :=
  BitVec.eq_of_getLsbD_eq (fun i hi => h i hi)

theorem wordA_getLsbD (f : Nibble) (nnn : Addr) (i : Nat) :
    (wordA f nnn).getLsbD i = if i < 12 then nnn.getLsbD i else f.getLsbD (i - 12) :=
  BitVec.getLsbD_append (x := f) (y := nnn)

theorem wordXK_eq_wordA (f x : Nibble) (kk : Byte) : wordXK f x kk = wordA f (x ++ kk) :=
  BitVec.append_assoc (x₁ := f) (x₂ := x) (x₃ := kk)

/-- A word is its family and `nnn`. -/
theorem wordA_fields (w : Word) : wordA (fieldFamily w) (fieldNnn w) = w := by
  apply word_eq_of_getLsbD
  intro i hi
  rw [wordA_getLsbD]
  by_cases h : i < 12
  · simp [fieldNnn, h]
  · have h4 : i - 12 < 4 := by omega
    have e : 12 + (i - 12) = i := by omega
    simp [fieldFamily, h, h4, e]

/-- A word is its family, `x` and `kk`. -/
theorem wordXK_fields (w : Word) : wordXK (fieldFamily w) (fieldX w) (fieldKk w) = w := by
  apply word_eq_of_getLsbD
  intro i hi
  rw [wordXK_eq_wordA, wordA_getLsbD]
  by_cases h : i < 12
  · rw [if_pos h]
    refine BitVec.getLsbD_append.trans ?_
    by_cases h8 : i < 8
    · simp [fieldKk, h8]
    · have e : 8 + (i - 8) = i := by omega
      have h4 : i - 8 < 4 := by omega
      simp [fieldX, h8, e, h4]
  · have e : 12 + (i - 12) = i := by omega
    have h4 : i - 12 < 4 := by omega
    simp [fieldFamily, h, e, h4]

/-- A word is its four nibbles. -/
theorem wordXYN_fields (w : Word) : wordXYN (fieldFamily w) (fieldX w) (fieldY w) (fieldN w) = w := by
  apply word_eq_of_getLsbD
  intro i hi
  unfold wordXYN
  refine BitVec.getLsbD_append.trans ?_
  by_cases h : i < 4
  · simp [fieldN, h]
  rw [if_neg h]
  refine BitVec.getLsbD_append.trans ?_
  by_cases h8 : i < 8
  · have e : 4 + (i - 4) = i := by omega
    have h4 : i - 4 < 4 := by omega
    simp [fieldY, e, h4]
  rw [if_neg (by omega)]
  refine BitVec.getLsbD_append.trans ?_
  by_cases h12 : i < 12
  · have e : 8 + (i - 4 - 4) = i := by omega
    have h4 : i - 4 - 4 < 4 := by omega
    simp [fieldX, e, h4]
  · have e : 12 + (i - 4 - 4 - 4) = i := by omega
    have h4 : ¬ i - 4 - 4 < 4 := by omega
    have h5 : i - 4 - 4 - 4 < 4 := by omega
    simp [fieldFamily, e, h4, h5]

/-! ## Masks -/

theorem wordA_and (f g : Nibble) (a b : Addr) : wordA f a &&& wordA g b = wordA (f &&& g) (a &&& b) :=
  and_parts 4 12 f g a b

theorem wordXK_and (f g x z : Nibble) (kk m : Byte) :
    wordXK f x kk &&& wordXK g z m = wordXK (f &&& g) (x &&& z) (kk &&& m) :=
  (and_parts 8 8 (f ++ x) (g ++ z) kk m).trans (congrArg (· ++ (kk &&& m)) (and_parts 4 4 f g x z))

theorem wordXYN_and (f g x z y u n m : Nibble) :
    wordXYN f x y n &&& wordXYN g z u m = wordXYN (f &&& g) (x &&& z) (y &&& u) (n &&& m) :=
  (and_parts 12 4 (f ++ x ++ y) (g ++ z ++ u) n m).trans
    (congrArg (· ++ (n &&& m)) ((and_parts 8 4 (f ++ x) (g ++ z) y u).trans
      (congrArg (· ++ (y &&& u)) (and_parts 4 4 f g x z))))

theorem nibble_and_ones (f : Nibble) : f &&& 0xF#4 = f := BitVec.and_allOnes

theorem byte_and_ones (b : Byte) : b &&& 0xFF#8 = b := BitVec.and_allOnes

/-- The mask 0xF000 leaves the family of a word with `nnn`. -/
theorem maskF000_wordA (f : Nibble) (nnn : Addr) : wordA f nnn &&& 0xF000#16 = wordA f 0x000 :=
  (wordA_and f 0xF nnn 0x000).trans (by simp [wordA, nibble_and_ones])

/-- The mask 0xF000 leaves the family of a word with `x` and `kk`. -/
theorem maskF000_wordXK (f x : Nibble) (kk : Byte) : wordXK f x kk &&& 0xF000#16 = wordXK f 0x0 0x00 :=
  (wordXK_and f 0xF x 0x0 kk 0x00).trans (by simp [wordXK, nibble_and_ones])

/-- The mask 0xF000 leaves the family of a word with `x`, `y` and `n`. -/
theorem maskF000_wordXYN (f x y n : Nibble) : wordXYN f x y n &&& 0xF000#16 = wordXYN f 0x0 0x0 0x0 :=
  (wordXYN_and f 0xF x 0x0 y 0x0 n 0x0).trans (by simp [wordXYN, nibble_and_ones])

/-- The mask 0xF0FF leaves the family and the low byte. -/
theorem maskF0FF_wordXK (f x : Nibble) (kk : Byte) : wordXK f x kk &&& 0xF0FF#16 = wordXK f 0x0 kk :=
  (wordXK_and f 0xF x 0x0 kk 0xFF).trans (by simp [wordXK, nibble_and_ones, byte_and_ones])

/-- The mask 0xF00F leaves the family and the low nibble. -/
theorem maskF00F_wordXYN (f x y n : Nibble) : wordXYN f x y n &&& 0xF00F#16 = wordXYN f 0x0 0x0 n :=
  (wordXYN_and f 0xF x 0x0 y 0x0 n 0xF).trans (by simp [wordXYN, nibble_and_ones])

end Sys2Proof
end

