-- ==== Sys2Proof/Laws/PerInstr.lean ====
section
/-! SUPPORT. Statements made instruction by instruction. `TableRow`: an instruction's word is of its own row of the
opcode map (30_encoding.md R65): the row's mask leaves the row's pattern of it. -/

namespace Sys2Proof.Laws.TableRow

/-- The encoding of a well-formed instruction matches the row of the opcode map that has its mnemonic. -/
def Statement (i : Instr) : Prop :=
  wellFormed i = true → ∃ row ∈ opcodeMap, row.mnemonic = mnemonicOf i ∧ encode i &&& row.mask = row.pattern

theorem cls (u : Nibble) : Statement (.cls u) :=
  fun _ => ⟨⟨0x00E0, 0xF0FF, "CLS"⟩, by simp [opcodeMap], rfl, (maskF0FF_wordXK _ _ _).trans (by decide)⟩

theorem ret (u : Nibble) : Statement (.ret u) :=
  fun _ => ⟨⟨0x00EE, 0xF0FF, "RET"⟩, by simp [opcodeMap], rfl, (maskF0FF_wordXK _ _ _).trans (by decide)⟩

theorem sys (nnn : Addr) : Statement (.sys nnn) :=
  fun _ => ⟨⟨0x0000, 0xF000, "SYS nnn"⟩, by simp [opcodeMap], rfl, (maskF000_wordA _ _).trans (by decide)⟩

theorem jp (nnn : Addr) : Statement (.jp nnn) :=
  fun _ => ⟨⟨0x1000, 0xF000, "JP nnn"⟩, by simp [opcodeMap], rfl, (maskF000_wordA _ _).trans (by decide)⟩

theorem call (nnn : Addr) : Statement (.call nnn) :=
  fun _ => ⟨⟨0x2000, 0xF000, "CALL nnn"⟩, by simp [opcodeMap], rfl, (maskF000_wordA _ _).trans (by decide)⟩

theorem seImm (x : Nibble) (kk : Byte) : Statement (.seImm x kk) :=
  fun _ => ⟨⟨0x3000, 0xF000, "SE Vx, kk"⟩, by simp [opcodeMap], rfl, (maskF000_wordXK _ _ _).trans (by decide)⟩

theorem sneImm (x : Nibble) (kk : Byte) : Statement (.sneImm x kk) :=
  fun _ => ⟨⟨0x4000, 0xF000, "SNE Vx, kk"⟩, by simp [opcodeMap], rfl, (maskF000_wordXK _ _ _).trans (by decide)⟩

theorem seReg (x y u : Nibble) : Statement (.seReg x y u) :=
  fun _ => ⟨⟨0x5000, 0xF000, "SE Vx, Vy"⟩, by simp [opcodeMap], rfl, (maskF000_wordXYN _ _ _ _).trans (by decide)⟩

theorem ldImm (x : Nibble) (kk : Byte) : Statement (.ldImm x kk) :=
  fun _ => ⟨⟨0x6000, 0xF000, "LD Vx, kk"⟩, by simp [opcodeMap], rfl, (maskF000_wordXK _ _ _).trans (by decide)⟩

theorem addImm (x : Nibble) (kk : Byte) : Statement (.addImm x kk) :=
  fun _ => ⟨⟨0x7000, 0xF000, "ADD Vx, kk"⟩, by simp [opcodeMap], rfl, (maskF000_wordXK _ _ _).trans (by decide)⟩

theorem ldReg (x y : Nibble) : Statement (.ldReg x y) :=
  fun _ => ⟨⟨0x8000, 0xF00F, "LD Vx, Vy"⟩, by simp [opcodeMap], rfl, (maskF00F_wordXYN _ _ _ _).trans (by decide)⟩

theorem orReg (x y : Nibble) : Statement (.orReg x y) :=
  fun _ => ⟨⟨0x8001, 0xF00F, "OR Vx, Vy"⟩, by simp [opcodeMap], rfl, (maskF00F_wordXYN _ _ _ _).trans (by decide)⟩

theorem andReg (x y : Nibble) : Statement (.andReg x y) :=
  fun _ => ⟨⟨0x8002, 0xF00F, "AND Vx, Vy"⟩, by simp [opcodeMap], rfl, (maskF00F_wordXYN _ _ _ _).trans (by decide)⟩

theorem xorReg (x y : Nibble) : Statement (.xorReg x y) :=
  fun _ => ⟨⟨0x8003, 0xF00F, "XOR Vx, Vy"⟩, by simp [opcodeMap], rfl, (maskF00F_wordXYN _ _ _ _).trans (by decide)⟩

theorem addReg (x y : Nibble) : Statement (.addReg x y) :=
  fun _ => ⟨⟨0x8004, 0xF00F, "ADD Vx, Vy"⟩, by simp [opcodeMap], rfl, (maskF00F_wordXYN _ _ _ _).trans (by decide)⟩

theorem subReg (x y : Nibble) : Statement (.subReg x y) :=
  fun _ => ⟨⟨0x8005, 0xF00F, "SUB Vx, Vy"⟩, by simp [opcodeMap], rfl, (maskF00F_wordXYN _ _ _ _).trans (by decide)⟩

theorem shr (x y : Nibble) : Statement (.shr x y) :=
  fun _ => ⟨⟨0x8006, 0xF00F, "SHR Vx"⟩, by simp [opcodeMap], rfl, (maskF00F_wordXYN _ _ _ _).trans (by decide)⟩

theorem subnReg (x y : Nibble) : Statement (.subnReg x y) :=
  fun _ => ⟨⟨0x8007, 0xF00F, "SUBN Vx, Vy"⟩, by simp [opcodeMap], rfl, (maskF00F_wordXYN _ _ _ _).trans (by decide)⟩

theorem shl (x y : Nibble) : Statement (.shl x y) :=
  fun _ => ⟨⟨0x800E, 0xF00F, "SHL Vx"⟩, by simp [opcodeMap], rfl, (maskF00F_wordXYN _ _ _ _).trans (by decide)⟩

theorem sneReg (x y u : Nibble) : Statement (.sneReg x y u) :=
  fun _ => ⟨⟨0x9000, 0xF000, "SNE Vx, Vy"⟩, by simp [opcodeMap], rfl, (maskF000_wordXYN _ _ _ _).trans (by decide)⟩

theorem ldI (nnn : Addr) : Statement (.ldI nnn) :=
  fun _ => ⟨⟨0xA000, 0xF000, "LD I, nnn"⟩, by simp [opcodeMap], rfl, (maskF000_wordA _ _).trans (by decide)⟩

theorem jpV0 (nnn : Addr) : Statement (.jpV0 nnn) :=
  fun _ => ⟨⟨0xB000, 0xF000, "JP V0, nnn"⟩, by simp [opcodeMap], rfl, (maskF000_wordA _ _).trans (by decide)⟩

theorem rnd (x : Nibble) (kk : Byte) : Statement (.rnd x kk) :=
  fun _ => ⟨⟨0xC000, 0xF000, "RND Vx, kk"⟩, by simp [opcodeMap], rfl, (maskF000_wordXK _ _ _).trans (by decide)⟩

theorem drw (x y n : Nibble) : Statement (.drw x y n) :=
  fun _ => ⟨⟨0xD000, 0xF000, "DRW Vx, Vy, n"⟩, by simp [opcodeMap], rfl, (maskF000_wordXYN _ _ _ _).trans (by decide)⟩

theorem skp (x : Nibble) : Statement (.skp x) :=
  fun _ => ⟨⟨0xE09E, 0xF0FF, "SKP Vx"⟩, by simp [opcodeMap], rfl, (maskF0FF_wordXK _ _ _).trans (by decide)⟩

theorem sknp (x : Nibble) : Statement (.sknp x) :=
  fun _ => ⟨⟨0xE0A1, 0xF0FF, "SKNP Vx"⟩, by simp [opcodeMap], rfl, (maskF0FF_wordXK _ _ _).trans (by decide)⟩

theorem ldVxDt (x : Nibble) : Statement (.ldVxDt x) :=
  fun _ => ⟨⟨0xF007, 0xF0FF, "LD Vx, DT"⟩, by simp [opcodeMap], rfl, (maskF0FF_wordXK _ _ _).trans (by decide)⟩

theorem ldVxK (x : Nibble) : Statement (.ldVxK x) :=
  fun _ => ⟨⟨0xF00A, 0xF0FF, "LD Vx, K"⟩, by simp [opcodeMap], rfl, (maskF0FF_wordXK _ _ _).trans (by decide)⟩

theorem ldDtVx (x : Nibble) : Statement (.ldDtVx x) :=
  fun _ => ⟨⟨0xF015, 0xF0FF, "LD DT, Vx"⟩, by simp [opcodeMap], rfl, (maskF0FF_wordXK _ _ _).trans (by decide)⟩

theorem ldStVx (x : Nibble) : Statement (.ldStVx x) :=
  fun _ => ⟨⟨0xF018, 0xF0FF, "LD ST, Vx"⟩, by simp [opcodeMap], rfl, (maskF0FF_wordXK _ _ _).trans (by decide)⟩

theorem addI (x : Nibble) : Statement (.addI x) :=
  fun _ => ⟨⟨0xF01E, 0xF0FF, "ADD I, Vx"⟩, by simp [opcodeMap], rfl, (maskF0FF_wordXK _ _ _).trans (by decide)⟩

theorem ldF (x : Nibble) : Statement (.ldF x) :=
  fun _ => ⟨⟨0xF029, 0xF0FF, "LD F, Vx"⟩, by simp [opcodeMap], rfl, (maskF0FF_wordXK _ _ _).trans (by decide)⟩

theorem ldB (x : Nibble) : Statement (.ldB x) :=
  fun _ => ⟨⟨0xF033, 0xF0FF, "LD B, Vx"⟩, by simp [opcodeMap], rfl, (maskF0FF_wordXK _ _ _).trans (by decide)⟩

theorem dump (x : Nibble) : Statement (.dump x) :=
  fun _ => ⟨⟨0xF055, 0xF0FF, "LD [I], Vx"⟩, by simp [opcodeMap], rfl, (maskF0FF_wordXK _ _ _).trans (by decide)⟩

theorem load (x : Nibble) : Statement (.load x) :=
  fun _ => ⟨⟨0xF065, 0xF0FF, "LD Vx, [I]"⟩, by simp [opcodeMap], rfl, (maskF0FF_wordXK _ _ _).trans (by decide)⟩

end Sys2Proof.Laws.TableRow
end

