-- ==== Sys2Proof/Laws/Step.lean ====
section
/-! SUPPORT. Everything a step can do, said once: a fetch fault, the no-op of an undecodable word, or the execution of
the decoded instruction followed by the end of the step (R50). -/

namespace Sys2Proof.Machine

/-- A word the decoder accepts under a policy it accepts under `ignore`, as the same instruction. -/
theorem decode_of_decodeUnder (p : IgnoredNibblePolicy) (w : Word) (i : Instr) (h : decodeUnder p w = .ok i) :
    decode w = .ok i := by
  unfold decodeUnder at h
  split at h
  · cases h
  · rename_i j hj
    split at h
    · exact hj.trans h
    · split at h
      · exact hj.trans h
      · cases h

/-- A word rejected as undecodable is so under every policy. -/
theorem decode_of_undecodable (p : IgnoredNibblePolicy) (w : Word) (h : decodeUnder p w = .error .undecodable) :
    decode w = .error .undecodable := by
  unfold decodeUnder at h
  split at h
  · rename_i r hr
    exact hr.trans h
  · split at h
    · cases h
    · split at h <;> cases h

/-- A word is never too short: `truncated` is for byte sequences. -/
theorem decodeUnder_ne_truncated (p : IgnoredNibblePolicy) (w : Word) : decodeUnder p w ≠ .error .truncated := by
  intro h
  unfold decodeUnder at h
  split at h
  · rename_i r hr
    injection h with h
    subst h
    unfold decode decodeFamily0 decodeFamily8 decodeFamilyE decodeFamilyF at hr
    split at hr <;> (try split at hr) <;> cases hr
  · split at h
    · cases h
    · split at h <;> cases h

/-- The end of a step answers a next state only for a next state. -/
theorem finishStep_eq_next (r : Host.Outcome State Fault Refusal) (t : State) (h : finishStep r = .next t) :
    ∃ u, r = .next u ∧ t = endStep u := by
  cases r with
  | next u => exact ⟨u, rfl, by injection h with h; exact h.symm⟩
  | fault f => cases h
  | refused q => cases h

/-- The dispatch of a word answers a next state only as the no-op or as an execution. -/
theorem dispatchWord_eq_next (w : Word) (s u : State) (h : dispatchWord w s = .next u) :
    (decode w = .error .undecodable ∧ u = s) ∨ ∃ i, decode w = .ok i ∧ exec i s = .next u := by
  unfold dispatchWord at h
  split at h
  · exact .inr ⟨_, decode_of_decodeUnder _ _ _ ‹_›, h⟩
  · cases h
  · exact .inl ⟨decode_of_undecodable _ _ ‹_›, by injection h with h; exact h.symm⟩
  · exact absurd ‹_› (decodeUnder_ne_truncated _ _)

/-- What `step(keys, rnd)` can answer as a next state. -/
theorem stepWith_cases (keys : BitVec 16) (rnd : Byte) (s t : State) (h : stepWith keys rnd s = .next t) :
    s.phase = .loaded ∧
    ((0xFFE < s.pc.toNat ∧ t = enterFault .fetchRange (beginStep keys rnd s)) ∨
     (CanFetch s ∧ decode (wordAtPc s) = .error .undecodable ∧ t = endStep (fetchedState keys rnd s)) ∨
     (CanFetch s ∧ ∃ i u, decode (wordAtPc s) = .ok i ∧ exec i (fetchedState keys rnd s) = .next u ∧ t = endStep u)) := by
  have hw : wordAtPc (beginStep keys rnd s) = wordAtPc s := rfl
  unfold stepWith at h
  cases hp : s.phase with
  | fresh => rw [hp] at h; cases h
  | faulted c => rw [hp] at h; cases h
  | loaded =>
    rw [hp] at h
    simp only [runStep, fetch, beginStep_pc] at h
    refine ⟨rfl, ?_⟩
    by_cases hpc : s.pc.toNat ≤ 0xFFE
    · simp only [hpc, if_true, hw] at h
      obtain ⟨u, hd, rfl⟩ := finishStep_eq_next _ _ h
      rcases dispatchWord_eq_next _ _ _ hd with ⟨hi, rfl⟩ | ⟨i, hi, hx⟩
      · exact .inr (.inl ⟨⟨hp, hpc⟩, hi, rfl⟩)
      · exact .inr (.inr ⟨⟨hp, hpc⟩, i, u, hi, hx, rfl⟩)
    · simp only [hpc, if_false] at h
      injection h with h
      exact .inl ⟨by omega, h.symm⟩

/-- The word the host places is the one the next step fetches (notes/assumptions/8.md). -/
theorem wordAtPc_withFetchWord (s : State) (w : Nat) (hw : w < 65536) :
    (s.withFetchWord 16 w).phase = .loaded ∧ (s.withFetchWord 16 w).pc.toNat ≤ 0xFFE ∧
      wordAtPc (s.withFetchWord 16 w) = BitVec.ofNat 16 w := by
  have hpc : (if s.pc.toNat ≤ 0xFFE then s.pc else 0x0200#16).toNat ≤ 0xFFE := by split <;> simp_all
  refine ⟨rfl, hpc, ?_⟩
  unfold State.withFetchWord placeWord wordAtPc
  simp only [memByte, Memory.read_writeAll]
  rw [dif_pos ⟨by omega, by simp [bytesOfWord]⟩, dif_pos ⟨by omega, by simp [bytesOfWord]⟩]
  simp only [bytesOfWord, Nat.sub_self, Nat.add_sub_cancel_left, List.getElem_cons_zero, List.getElem_cons_succ]
  apply word_eq_of_getLsbD
  intro i hi
  unfold wordOfBytes
  refine (BitVec.getLsbD_append).trans ?_
  have : w % 65536 = w := Nat.mod_eq_of_lt hw
  by_cases h : i < 8
  · simp [h, tableWord, this]
  · have e : 8 + (i - 8) = i := by omega
    simp [h, tableWord, this, e]; omega

end Sys2Proof.Machine
end

