-- ==== Sys2Proof/Tests/Slice0.lean ====
section
/-! SUPPORT. Small tests by evaluation: the well-formedness smoke test, every constructor's word written out from the
opcode map, the vectors of 95_test_vectors.md (V<n>, L1 item <n>), and a witness for the hypotheses of each statement. -/

namespace Sys2Proof.Tests

open Sys2Proof Sys2Proof.Machine

/-! ## Helpers -/

/-- A loaded unit in the reset state: the start state of 95_test_vectors.md. -/
def unit : State := { State.reset with phase := .loaded }

/-- The outcome is a next state with a property. -/
def ends (o : Host.Outcome State Fault Refusal) (p : State → Bool) : Bool :=
  match o with
  | .next t => p t
  | .fault _ | .refused _ => false

/-- The outcome is the given refusal. -/
def refuses (o : Host.Outcome State Fault Refusal) (q : Refusal) : Bool :=
  match o with
  | .refused r => r == q
  | .next _ | .fault _ => false

/-- One step on a word placed at PC, with no key pressed and the random byte 0. -/
def run (w : Nat) (s : State) (p : State → Bool) : Bool := ends (stepWith 0x0000 0x00 (s.withFetchWord 16 w)) p

/-- The same with keys and a random byte. -/
def runWith (keys : BitVec 16) (rnd : Byte) (w : Nat) (s : State) (p : State → Bool) : Bool :=
  ends (stepWith keys rnd (s.withFetchWord 16 w)) p

/-- The step on a word takes a fault. -/
def runFaults (w : Nat) (s : State) (c : Fault) : Bool := run w s (fun t => t.phase == .faulted c)

/-- The unit with some registers set. -/
def withRegs (rs : List (Nibble × Byte)) (s : State) : State := rs.foldl (fun s r => setV s r.1 r.2) s

/-- The unit with I set. -/
def withIdx (i : Word) (s : State) : State := { s with idx := i }

/-- The unit with bytes in memory. -/
def withBytes (a : Nat) (bs : List Byte) (s : State) : State :=
  { s with mem := Memory.writeAll s.cfg.font s.mem a bs }

/-- A faulted unit. -/
def faultedUnit : State := { State.reset with phase := .faulted .stackOverflow }

/-- A unit with the policy `refuse`. -/
def refusingUnit : State := { unit with cfg := { font := defaultFont, policy := .refuse } }

/-! ## Well-formedness: the one check refuses each form it is about -/

theorem test_sys_with_low_byte_E0_is_ill_formed : wellFormed (.sys 0x0E0) = false := by decide
theorem test_sys_with_low_byte_EE_is_ill_formed : wellFormed (.sys 0xFEE) = false := by decide
theorem test_sys_with_another_low_byte_is_well_formed : wellFormed (.sys 0x123) = true := by decide

/-! ## Decoding: every constructor, a word written out from its row of R65 -/

theorem test_decode_family0 :
    decode 0b0000000011100000#16 = .ok (.cls 0x0) ∧ decode 0b0000000011101110#16 = .ok (.ret 0x0) ∧
    decode 0b0000000100100011#16 = .ok (.sys 0x123) := by decide
theorem test_decode_ignored_nibbles :
    decode 0x01E0#16 = .ok (.cls 0x1) ∧ decode 0x0FEE#16 = .ok (.ret 0xF) ∧
    decode 0x5121#16 = .ok (.seReg 0x1 0x2 0x1) ∧ decode 0x912F#16 = .ok (.sneReg 0x1 0x2 0xF) := by decide
theorem test_decode_jumps :
    decode 0b0001001000110100#16 = .ok (.jp 0x234) ∧ decode 0b0010001000010000#16 = .ok (.call 0x210) ∧
    decode 0b1011001100000000#16 = .ok (.jpV0 0x300) ∧ decode 0b1010001100000000#16 = .ok (.ldI 0x300) := by decide
theorem test_decode_skips :
    decode 0b0011001100010010#16 = .ok (.seImm 0x3 0x12) ∧ decode 0b0100001100010010#16 = .ok (.sneImm 0x3 0x12) ∧
    decode 0b0101000100100000#16 = .ok (.seReg 0x1 0x2 0x0) ∧
    decode 0b1001000100100000#16 = .ok (.sneReg 0x1 0x2 0x0) := by decide
theorem test_decode_immediates :
    decode 0b0110101010011100#16 = .ok (.ldImm 0xA 0x9C) ∧ decode 0b0111001100000010#16 = .ok (.addImm 0x3 0x02) ∧
    decode 0b1100001100001111#16 = .ok (.rnd 0x3 0x0F) ∧ decode 0b1101000000010101#16 = .ok (.drw 0x0 0x1 0x5) := by
  decide
theorem test_decode_family8_low :
    decode 0b1000000100100000#16 = .ok (.ldReg 0x1 0x2) ∧ decode 0b1000000100100001#16 = .ok (.orReg 0x1 0x2) ∧
    decode 0b1000000100100010#16 = .ok (.andReg 0x1 0x2) ∧ decode 0b1000000100100011#16 = .ok (.xorReg 0x1 0x2) ∧
    decode 0b1000000100100100#16 = .ok (.addReg 0x1 0x2) := by decide
theorem test_decode_family8_high :
    decode 0b1000000100100101#16 = .ok (.subReg 0x1 0x2) ∧ decode 0b1000000100100110#16 = .ok (.shr 0x1 0x2) ∧
    decode 0b1000000100100111#16 = .ok (.subnReg 0x1 0x2) ∧ decode 0b1000000100101110#16 = .ok (.shl 0x1 0x2) := by
  decide
theorem test_decode_familyE :
    decode 0b1110001010011110#16 = .ok (.skp 0x2) ∧ decode 0b1110001010100001#16 = .ok (.sknp 0x2) := by decide
theorem test_decode_familyF_timers :
    decode 0b1111000100000111#16 = .ok (.ldVxDt 0x1) ∧ decode 0b1111001000001010#16 = .ok (.ldVxK 0x2) ∧
    decode 0b1111000000010101#16 = .ok (.ldDtVx 0x0) ∧ decode 0b1111010000011000#16 = .ok (.ldStVx 0x4) := by decide
theorem test_decode_familyF_memory :
    decode 0b1111001000011110#16 = .ok (.addI 0x2) ∧ decode 0b1111000000101001#16 = .ok (.ldF 0x0) ∧
    decode 0b1111010000110011#16 = .ok (.ldB 0x4) ∧ decode 0b1111001001010101#16 = .ok (.dump 0x2) ∧
    decode 0b1111001101100101#16 = .ok (.load 0x3) := by decide
theorem test_decode_rejects :
    decode 0x8008#16 = .error .undecodable ∧ decode 0x800F#16 = .error .undecodable ∧
    decode 0xE000#16 = .error .undecodable ∧ decode 0xF108#16 = .error .undecodable ∧
    decodeBytes [0x12] = .error .truncated := by decide
theorem test_decodeTableWord : decodeTableWord 16 0xD015 = some (.drw 0x0 0x1 0x5) := by decide

/-! ## Fetch, decode and dispatch -/

/-- V1. -/
theorem test_zero_word_is_noop : run 0x0000 unit (fun t => t.pc == 0x202 && t.v == unit.v) = true := by decide
/-- V2. -/
theorem test_sys_is_noop : run 0x0123 unit (fun t => t.pc == 0x202) = true := by decide
/-- V7. -/
theorem test_undecodable_keeps_vf :
    run 0x800D (withRegs [(0xF, 0x55)] unit) (fun t => t.pc == 0x202 && getV t vf == 0x55) = true := by decide
/-- V8: no key lookup, so no fault. -/
theorem test_undecodable_E_looks_up_no_key :
    run 0xE19F (withRegs [(0x1, 0xFF)] unit) (fun t => t.pc == 0x202 && !isFaulted t) = true := by decide
/-- V10. -/
theorem test_fetch_at_FFE : run 0x1200 { unit with pc := 0xFFE } (fun t => t.pc == 0x200) = true := by decide
/-- V11. -/
theorem test_fetch_at_FFF_faults :
    ends (stepWith 0 0 { unit with pc := 0xFFF }) (fun t => t.phase == .faulted .fetchRange) = true := by decide
/-- V12. -/
theorem test_odd_pc : run 0x602A { unit with pc := 0x201 }
    (fun t => getV t 0x0 == 0x2A && t.pc == 0x203) = true := by decide
/-- V13. -/
theorem test_dchg_cleared : run 0x0000 { unit with dchg := true } (fun t => !t.dchg) = true := by decide
/-- V14. -/
theorem test_policy_refuse :
    refuses (stepWith 0 0 (refusingUnit.withFetchWord 16 0x01E0)) .ignoredNibble = true ∧
    refuses (stepWith 0 0 (refusingUnit.withFetchWord 16 0x5121)) .ignoredNibble = true ∧
    run 0x00E0 refusingUnit (fun t => t.pc == 0x202) = true := by decide

/-! ## Display -/

/-- V3, V15. -/
theorem test_cls : run 0x01E0 { unit with disp := setPixel blankDisplay 5 7 true, dchg := true }
    (fun t => t.disp == blankDisplay && !t.dchg && t.pc == 0x202) = true := by decide
/-- V16: glyph 0 at the origin. -/
theorem test_drw_glyph_0 : run 0xD015 unit
    (fun t => pixel t.disp 0 0 && pixel t.disp 3 0 && !pixel t.disp 4 0 && pixel t.disp 0 1 && !pixel t.disp 1 1
      && pixel t.disp 3 1 && pixel t.disp 3 4 && getV t vf == 0 && t.dchg) = true := by decide +kernel
/-- L1 item 6: columns wrap. -/
theorem test_drw_wraps_columns : run 0xD121 (withBytes 0x300 [0xC0] (withIdx 0x300 (withRegs [(0x1, 63)] unit)))
    (fun t => pixel t.disp 63 0 && pixel t.disp 0 0 && !pixel t.disp 1 0 && getV t vf == 0) = true := by decide +kernel
/-- V20: rows wrap. -/
theorem test_drw_wraps_rows :
    run 0xD012 (withBytes 0x300 [0x80, 0x80] (withIdx 0x300 (withRegs [(0x1, 31)] unit)))
      (fun t => pixel t.disp 0 31 && pixel t.disp 0 0) = true := by decide +kernel
/-- V21: the coordinate is read before the flag is written. -/
theorem test_drw_reads_vf_first : run 0xDF11 (withBytes 0x300 [0x80] (withIdx 0x300 (withRegs [(0xF, 5)] unit)))
    (fun t => pixel t.disp 5 0 && !pixel t.disp 0 0 && getV t vf == 0) = true := by decide +kernel
/-- V22. -/
theorem test_drw_collision :
    run 0xD011 (withBytes 0x300 [0x80] (withIdx 0x300 { unit with disp := setPixel blankDisplay 0 0 true }))
      (fun t => !pixel t.disp 0 0 && getV t vf == 1) = true := by decide +kernel
/-- V17, V18, V19. -/
theorem test_drw_at_the_top_of_memory :
    run 0xD000 (withIdx 0xFFF unit) (fun t => t.dchg && !isFaulted t) = true ∧
    run 0xD001 (withBytes 0xFFF [0x80] (withIdx 0xFFF unit)) (fun t => pixel t.disp 0 0) = true ∧
    runFaults 0xD002 (withIdx 0xFFF unit) .memoryRange = true := by decide +kernel

/-! ## Control flow -/

/-- V4. -/
theorem test_ret : run 0x0FEE { unit with sp := 1, stack := unit.stack.set 0 0x300 }
    (fun t => t.pc == 0x300 && t.sp == 0) = true := by decide
/-- V23. -/
theorem test_ret_underflow : runFaults 0x00EE unit .stackUnderflow = true := by decide
/-- V24. -/
theorem test_call : run 0x2400 { unit with sp := 15 }
    (fun t => t.stack[15] == 0x202 && t.sp == 16 && t.pc == 0x400) = true := by decide
/-- V25. -/
theorem test_call_overflow : runFaults 0x2400 { unit with sp := 16 } .stackOverflow = true := by decide
/-- V26. -/
theorem test_jp : run 0x1FFF unit (fun t => t.pc == 0xFFF) = true := by decide
/-- V27, V28: the offset register is V0, and the sum is not reduced. -/
theorem test_jpV0 :
    run 0xBF00 (withRegs [(0x0, 0xFF)] unit) (fun t => t.pc == 0xFFF) = true ∧
    run 0xB500 (withRegs [(0x0, 0x02), (0x5, 0x99)] unit) (fun t => t.pc == 0x502) = true := by decide
/-- L1 item 7, V29. -/
theorem test_seImm :
    run 0x3312 (withRegs [(0x3, 0x12)] unit) (fun t => t.pc == 0x204) = true ∧
    run 0x3312 (withRegs [(0x3, 0x13)] unit) (fun t => t.pc == 0x202) = true := by decide
/-- V30. -/
theorem test_sneImm :
    run 0x4480 (withRegs [(0x4, 0x80)] unit) (fun t => t.pc == 0x202) = true ∧
    run 0x4312 (withRegs [(0x3, 0x13)] unit) (fun t => t.pc == 0x204) = true := by decide
/-- V5. -/
theorem test_seReg : run 0x5121 (withRegs [(0x1, 7), (0x2, 7)] unit) (fun t => t.pc == 0x204) = true := by decide
/-- V6, V32. -/
theorem test_sneReg :
    run 0x912F (withRegs [(0x1, 7), (0x2, 8)] unit) (fun t => t.pc == 0x204) = true ∧
    run 0x9330 unit (fun t => t.pc == 0x202) = true := by decide
/-- V33, V34. -/
theorem test_skp :
    runWith 0x8000 0 0xE29E (withRegs [(0x2, 0xF)] unit) (fun t => t.pc == 0x204) = true ∧
    runFaults 0xE29E (withRegs [(0x2, 0x10)] unit) .keyIndexRange = true := by decide
/-- V35, V36. -/
theorem test_sknp :
    runWith 0x0008 0 0xE2A1 (withRegs [(0x2, 3)] unit) (fun t => t.pc == 0x202) = true ∧
    runFaults 0xE2A1 (withRegs [(0x2, 0xFF)] unit) .keyIndexRange = true := by decide

/-! ## Arithmetic -/

/-- V37. -/
theorem test_ldImm : run 0x6FAB unit (fun t => getV t 0xF == 0xAB) = true := by decide
/-- L1 item 2. -/
theorem test_addImm : run 0x7302 (withRegs [(0x3, 0xFF), (0xF, 0x55)] unit)
    (fun t => getV t 0x3 == 0x01 && getV t vf == 0x55 && t.pc == 0x202) = true := by decide
/-- V49. -/
theorem test_ldReg : run 0x8120 (withRegs [(0x1, 0x12), (0x2, 0x34)] unit)
    (fun t => getV t 0x1 == 0x34 && getV t 0x2 == 0x34) = true := by decide
/-- The example of R86. -/
theorem test_orReg : run 0x8121 (withRegs [(0x1, 0xF0), (0x2, 0x0F), (0xF, 0x77)] unit)
    (fun t => getV t 0x1 == 0xFF && getV t vf == 0x77) = true := by decide
/-- The example of R87. -/
theorem test_andReg : run 0x8122 (withRegs [(0x1, 0xF0), (0x2, 0x3C), (0xF, 0x77)] unit)
    (fun t => getV t 0x1 == 0x30 && getV t vf == 0x77) = true := by decide
/-- The example of R88. -/
theorem test_xorReg : run 0x8123 (withRegs [(0x1, 0xF0), (0x2, 0x3C), (0xF, 0x77)] unit)
    (fun t => getV t 0x1 == 0xCC && getV t vf == 0x77) = true := by decide
/-- L1 item 3, V40. -/
theorem test_addReg :
    run 0x8124 (withRegs [(0x1, 0xFF), (0x2, 0x01)] unit) (fun t => getV t 0x1 == 0 && getV t vf == 1) = true ∧
    run 0x8F14 (withRegs [(0xF, 0xFF), (0x1, 0x01)] unit) (fun t => getV t vf == 1) = true := by decide
/-- L1 item 4, V41. -/
theorem test_subReg :
    run 0x8125 (withRegs [(0x1, 0x03), (0x2, 0x05)] unit) (fun t => getV t 0x1 == 0xFE && getV t vf == 0) = true ∧
    run 0x8125 (withRegs [(0x1, 0x07), (0x2, 0x07)] unit) (fun t => getV t 0x1 == 0 && getV t vf == 0) = true := by
  decide
/-- V44, V47. -/
theorem test_shr :
    run 0x8126 (withRegs [(0x1, 0x01), (0x2, 0xFF)] unit) (fun t => getV t 0x1 == 0 && getV t vf == 1) = true ∧
    run 0x8F06 (withRegs [(0xF, 0x03)] unit) (fun t => getV t vf == 1) = true := by decide
/-- The example of R92, V43. -/
theorem test_subnReg :
    run 0x8127 (withRegs [(0x1, 0x05), (0x2, 0x03)] unit) (fun t => getV t 0x1 == 0xFE && getV t vf == 0) = true ∧
    run 0x8127 (withRegs [(0x1, 0x03), (0x2, 0x05)] unit) (fun t => getV t 0x1 == 0x02 && getV t vf == 1) = true := by
  decide
/-- V45, V46. -/
theorem test_shl :
    run 0x810E (withRegs [(0x1, 0x80)] unit) (fun t => getV t 0x1 == 0 && getV t vf == 1) = true ∧
    run 0x810E (withRegs [(0x1, 0x7F)] unit) (fun t => getV t 0x1 == 0xFE && getV t vf == 0) = true := by decide
/-- The example of R95. -/
theorem test_rnd : runWith 0 0xA7 0xC30F unit (fun t => getV t 0x3 == 0x07) = true := by decide

/-! ## Index register and memory -/

/-- V52. -/
theorem test_ldI : run 0xAFFF unit (fun t => t.idx == 0x0FFF) = true := by decide
/-- V53, V54. -/
theorem test_addI :
    run 0xF11E (withIdx 0xFFFF (withRegs [(0x1, 1)] unit)) (fun t => t.idx == 0 && getV t vf == 0) = true ∧
    run 0xF11E (withIdx 0x0FFF (withRegs [(0x1, 1)] unit)) (fun t => t.idx == 0x1000) = true := by decide
/-- V55, V57. -/
theorem test_ldF :
    run 0xF229 (withRegs [(0x2, 0x0A)] unit) (fun t => t.idx == 0x032) = true ∧
    run 0xF229 (withRegs [(0x2, 0xFF)] unit) (fun t => t.idx == 0x4FB) = true := by decide
/-- L1 item 9, V60. -/
theorem test_ldB :
    run 0xF433 (withIdx 0x300 (withRegs [(0x4, 156)] unit))
      (fun t => memByte t 0x300 == 1 && memByte t 0x301 == 5 && memByte t 0x302 == 6 && t.idx == 0x300) = true ∧
    runFaults 0xF133 (withIdx 0xFFE unit) .memoryRange = true := by decide
/-- V61: the font is not protected. -/
theorem test_ldB_overwrites_the_font : run 0xF133 (withRegs [(0x1, 7)] unit)
    (fun t => memByte t 0 == 0 && memByte t 1 == 0 && memByte t 2 == 7 && memByte t 3 == 0x90) = true := by decide
/-- The example of R100, V63. -/
theorem test_dump :
    run 0xF255 (withIdx 0x300 (withRegs [(0x0, 0x11), (0x1, 0x22), (0x2, 0x33), (0x3, 0x44)] unit))
      (fun t => memByte t 0x300 == 0x11 && memByte t 0x301 == 0x22 && memByte t 0x302 == 0x33 &&
        memByte t 0x303 == 0 && t.idx == 0x300) = true ∧
    runFaults 0xFF55 (withIdx 0xFF1 unit) .memoryRange = true := by decide
/-- V64, V65. -/
theorem test_load :
    run 0xF065 (withBytes 0x300 [0x42, 0x43] (withIdx 0x300 unit))
      (fun t => getV t 0x0 == 0x42 && getV t 0x1 == 0 && t.idx == 0x300) = true ∧
    run 0xFF65 (withBytes 0x30F [0x99] (withIdx 0x300 unit)) (fun t => getV t vf == 0x99) = true := by decide

/-! ## Timers and keys -/

/-- The example of R102. -/
theorem test_ldVxDt : run 0xF107 { unit with dt := 2 } (fun t => getV t 0x1 == 2 && t.dt == 1) = true := by decide
/-- V67, L1 item 10. -/
theorem test_ldDtVx :
    run 0xF115 (withRegs [(0x1, 1)] unit) (fun t => t.dt == 0) = true ∧
    run 0xF515 (withRegs [(0x5, 5)] unit) (fun t => t.dt == 4) = true := by decide
/-- V68, V69. -/
theorem test_ldStVx :
    run 0xF118 { unit with st := 9 } (fun t => t.st == 0 && !soundActive t) = true ∧
    run 0xF118 (withRegs [(0x1, 2)] unit) (fun t => t.st == 1 && soundActive t) = true := by decide
/-- V70, V71. -/
theorem test_ldVxK :
    runWith 0b0000001000010100 0 0xF30A unit (fun t => getV t 0x3 == 9 && t.pc == 0x202) = true ∧
    run 0xF30A { unit with dt := 3 } (fun t => t.pc == 0x200 && t.dt == 2) = true := by decide
/-- V73. -/
theorem test_timers_saturate : run 0x0000 unit (fun t => t.dt == 0 && t.st == 0) = true := by decide

/-! ## Lifecycle and reset -/

/-- V74, V75. -/
theorem test_lifecycle_refusals :
    refuses (step State.reset) .stepWhenFresh = true ∧
    refuses (transact (.load []) unit) .loadWhenLoaded = true ∧
    refuses (step faultedUnit) .stepWhenFaulted = true ∧ faultOut faultedUnit = 2 := by decide
/-- V76. -/
theorem test_new_clears_a_fault :
    ends (transact .new faultedUnit) (fun t => t == State.reset && faultOut t == 0) = true := by decide
/-- V77. -/
theorem test_empty_image : ends (runHost [.load [], .step 0 0] State.reset) (fun t => t.pc == 0x202) = true := by
  decide
/-- R20, R21: glyph 5 and the zeros above the font. -/
theorem test_reset_memory :
    memByte State.reset 0x019 = 0xF0 ∧ memByte State.reset 0x01A = 0x80 ∧ memByte State.reset 0x04F = 0x80 ∧
    memByte State.reset 0x050 = 0x00 := by decide
/-- A listed payload is the one a step takes. -/
theorem test_step_takes_the_listed_input :
    ends (step ({ unit with inputs := [⟨0x0001, 0xFF⟩] }.withFetchWord 16 0xF00A))
      (fun t => t.pc == 0x202 && t.inputs == []) = true := by decide
/-- A free payload still lets the step run. -/
theorem test_first_step_after_reset_runs :
    ends (step (State.reset.withFetchWord 16 0x6001)) (fun t => t.draws == 1 && getV t 0x0 == 1) = true := by decide

/-! ## Witnesses: states and operands that meet the hypotheses of the statements -/

theorem witness_DecodeInvertsEncode : wellFormed (.sys 0xFFF) = true ∧ wellFormed (.drw 0xF 0xF 0xF) = true := by
  decide
theorem witness_EncodeInvertsDecode : decode 0xFFFF#16 = .error .undecodable ∧ decode 0xDFFF#16 = .ok (.drw 0xF 0xF 0xF) := by
  decide
theorem witness_DecodeFollowsOpcodeMap :
    decode 0x00E0#16 = .ok (.cls 0x0) ∧ decode 0x800F#16 = .error .undecodable ∧
    (∃ r ∈ opcodeMap, 0x00E0#16 &&& r.mask = r.pattern ∧ r.mnemonic = "CLS") := by decide
theorem witness_UndecodableWordsAreNoOps :
    (CanFetch (unit.withFetchWord 16 0x8008) ∧ undecodableWord (wordAtPc (unit.withFetchWord 16 0x8008)) = true) ∧
    (CanFetch unit ∧ undecodableWord (wordAtPc unit) = true) ∧ undecodableWord 0x00E0 = false := by decide
theorem witness_IgnoredNibblePolicyHolds :
    CanFetch (refusingUnit.withFetchWord 16 0x0FE0) ∧
    decode (wordAtPc (refusingUnit.withFetchWord 16 0x0FE0)) = .ok (.cls 0xF) ∧
    ignoredNibble (.cls 0xF) ≠ 0x0#4 ∧ (refusingUnit.withFetchWord 16 0x0FE0).cfg.policy = .refuse := by decide
theorem witness_StepRunsDecodedInstruction :
    CanFetch (unit.withFetchWord 16 0x1200) ∧
    decodeUnder unit.cfg.policy (wordAtPc (unit.withFetchWord 16 0x1200)) = .ok (.jp 0x200) := by decide
theorem witness_FetchReadsBigEndianWord :
    { unit with pc := 0xFFE }.pc.toNat ≤ 0xFFE ∧ 0xFFE < { unit with pc := 0xFFF }.pc.toNat := by decide
theorem witness_FetchBeyondMemoryFaults :
    { unit with pc := 0xFFF }.phase = .loaded ∧ 0xFFE < { unit with pc := 0xFFF }.pc.toNat := by decide
theorem witness_StepLatchesKeys : ∃ t, stepWith 0x8001 0x00 unit = .next t ∧ NoFault t := ⟨_, rfl, by decide⟩
theorem witness_DisplayChangedExactlyAfterDraw :
    (∃ t, stepWith 0 0 unit = .next t ∧ NoFault t ∧ t.dchg = false) ∧
    (∃ t, stepWith 0 0 (unit.withFetchWord 16 0xD000) = .next t ∧ NoFault t ∧ t.dchg = true) :=
  ⟨⟨_, rfl, by decide, by decide⟩, ⟨_, rfl, by decide, by decide⟩⟩
theorem witness_TimersTickEveryStep :
    (∃ t, stepWith 0 0 { unit with dt := 0xFF, st := 1 } = .next t ∧ NoFault t ∧
      (∀ x, decode (wordAtPc unit) ≠ .ok (.ldDtVx x)) ∧ (∀ x, decode (wordAtPc unit) ≠ .ok (.ldStVx x))) ∧
    (∃ t, stepWith 0 0 (unit.withFetchWord 16 0xF015) = .next t ∧ NoFault t ∧
      decode (wordAtPc (unit.withFetchWord 16 0xF015)) = .ok (.ldDtVx 0x0)) ∧
    (∃ t, stepWith 0 0 (unit.withFetchWord 16 0xFF18) = .next t ∧ NoFault t ∧
      decode (wordAtPc (unit.withFetchWord 16 0xFF18)) = .ok (.ldStVx 0xF)) :=
  ⟨⟨_, rfl, by decide, by decide, by decide⟩, ⟨_, rfl, by decide, by decide⟩, ⟨_, rfl, by decide, by decide⟩⟩
theorem witness_RandomByteReachesOnlyRnd :
    (∃ t1 t2, stepWith 0 0x00 unit = .next t1 ∧ stepWith 0 0xFF unit = .next t2 ∧ NoFault t1) ∧
    (∀ x kk, decode (wordAtPc unit) ≠ .ok (.rnd x kk)) :=
  ⟨⟨_, _, rfl, rfl, rfl⟩, by
    have h : decode (wordAtPc unit) = .ok (.sys 0x000) := by decide
    intro x kk
    rw [h]
    simp⟩
theorem witness_RandomByteReachesOnlyRnd_fault :
    (∃ t1 t2, stepWith 0 0x00 { unit with pc := 0xFFF } = .next t1 ∧ stepWith 0 0xFF { unit with pc := 0xFFF } = .next t2 ∧
      t1.phase = .faulted .fetchRange) ∧
    (∀ x kk, decode (wordAtPc { unit with pc := 0xFFF }) ≠ .ok (.rnd x kk)) :=
  ⟨⟨_, _, rfl, rfl, rfl⟩, by
    have h : decode (wordAtPc { unit with pc := 0xFFF }) = .ok (.sys 0x000) := by decide
    intro x kk
    rw [h]
    simp⟩
theorem witness_LoadInstallsImage :
    State.reset.phase = .fresh ∧ (List.replicate 3584 (0xFF : Byte)).length ≤ 3584 ∧
    3584 < (List.replicate 3585 (0xFF : Byte)).length := by
  simp only [List.length_replicate]
  exact ⟨rfl, by omega, by omega⟩
theorem witness_LifecycleOrderIsKept :
    State.reset.phase = .fresh ∧ unit.cfg.policy = .ignore ∧ unit.phase = .loaded ∧ faultedUnit.phase = .faulted .stackOverflow := by decide
theorem witness_StepFaultIsAttributed :
    (∃ t, stepWith 0 0 { unit with pc := 0xFFF } = .next t ∧ t.phase = .faulted .fetchRange) ∧
    (∃ t, stepWith 0 0 (unit.withFetchWord 16 0x00EE) = .next t ∧ t.phase = .faulted .stackUnderflow) :=
  ⟨⟨_, rfl, by decide⟩, ⟨_, rfl, by decide⟩⟩
theorem witness_OutputsReportState :
    isFaulted unit = false ∧ faultedUnit.phase = .faulted .stackOverflow ∧
    { unit with phase := .faulted .loadOversize }.phase = .faulted .loadOversize ∧
    { unit with phase := .faulted .stackUnderflow }.phase = .faulted .stackUnderflow ∧
    { unit with phase := .faulted .keyIndexRange }.phase = .faulted .keyIndexRange ∧
    { unit with phase := .faulted .memoryRange }.phase = .faulted .memoryRange ∧
    { unit with phase := .faulted .fetchRange }.phase = .faulted .fetchRange := by decide
theorem witness_OnlyNewLeavesFaulted :
    isFaulted faultedUnit = true ∧ ∃ t, runHost [.new] faultedUnit = .next t := ⟨by decide, _, rfl⟩
theorem witness_StepKeepsInvariant : UnitInv unit ∧ ∃ t, step unit = .next t := ⟨by decide, _, rfl⟩
theorem witness_HostRunKeepsInvariant :
    UnitInv State.reset ∧ ∃ t, runHost [.load [0x22, 0x00], .step 0 0] State.reset = .next t := ⟨by decide, _, rfl⟩
theorem witness_invariant_rules_states_out :
    ¬ UnitInv { unit with pc := 0x10FF } ∧ ¬ UnitInv { unit with mem := [(1, 0x01), (0, 0x01)] } ∧
    ¬ UnitInv { unit with sp := 1, stack := unit.stack.set 0 0x1001 } := by decide
theorem witness_MemoryIsPlain : (0xFFF : Nat) ≤ 0xFFF ∧ (0xFFF : Nat) < 0x1000 := by decide
theorem witness_OnlyStoresChangeMemory :
    NoFault unit ∧ ∃ t, exec (.jp 0x234) unit = .next t ∧ NoFault t := ⟨by decide, _, rfl, by decide⟩
theorem witness_VfChangesOnlyAsFlagOrDestination :
    NoFault unit ∧
    (∃ t, exec (.load 0xE) unit = .next t ∧ NoFault t ∧ writesFlag (.load 0xE) = false ∧
      destination (.load 0xE) ≠ some vf) ∧
    (∃ t, exec (.shl 0xF 0x0) unit = .next t ∧ NoFault t ∧ writesFlag (.shl 0xF 0x0) = true) :=
  ⟨by decide, ⟨_, rfl, by decide, by decide, by decide⟩, ⟨_, rfl, by decide, by decide⟩⟩
theorem witness_OnlyThreeInstructionsWriteIndex :
    NoFault unit ∧ ∃ t, exec (.dump 0xF) unit = .next t ∧ NoFault t := ⟨by decide, _, rfl, by decide⟩
theorem witness_OnlyCallAndRetTouchStack :
    NoFault unit ∧ ∃ t, exec (.sys 0x123) unit = .next t ∧ NoFault t := ⟨by decide, _, rfl, by decide⟩
theorem witness_OnlyClearAndDrawChangeDisplay :
    NoFault unit ∧ ∃ t, exec (.ldB 0x1) unit = .next t ∧ NoFault t := ⟨by decide, _, rfl, by decide⟩
theorem witness_InstructionsKeepLifecycleAndInputs :
    NoFault unit ∧ (∃ t, exec (.call 0x200) unit = .next t ∧ NoFault t) ∧
    (∃ t, exec (.ret 0x0) unit = .next t ∧ ¬ NoFault t) :=
  ⟨by decide, ⟨_, rfl, by decide⟩, ⟨_, rfl, by decide⟩⟩
theorem witness_EachInstructionHasOneFaultKind :
    NoFault unit ∧ ∃ t, exec (.ret 0x0) unit = .next t ∧ t.phase = .faulted .stackUnderflow :=
  ⟨by decide, _, rfl, by decide⟩
theorem witness_DrwXorsSprite :
    SpriteInMemory (withIdx 0xFFF unit) 0x1 ∧ SpriteInMemory (withIdx 0xFFFF unit) 0x0 ∧
    ¬ SpriteInMemory (withIdx 0xFFF unit) 0x2 ∧
    (spriteBit unit 0x0 0x1 0x5 0 0 = true ∧ spriteBit unit 0x0 0x1 0x5 63 31 = false) := by decide
theorem witness_DrwXorsSprite_collision :
    Collides { unit with disp := setPixel blankDisplay 3 4 true } 0x0 0x1 0x5 ∧ ¬ Collides unit 0x0 0x1 0x0 :=
  ⟨⟨3, 4, by decide⟩, fun ⟨X, Y, h, _⟩ => by simp [spriteBit] at h⟩
theorem witness_DrawingTwiceRestoresDisplay :
    SpriteInMemory unit 0xF ∧ (0x0#4 ≠ vf) ∧ (0xE#4 ≠ vf) := by decide
theorem witness_RetPopsReturnAddress :
    { unit with sp := 16 }.sp.val = (15 : Fin 16).val + 1 ∧ { unit with sp := 1 }.sp.val = (0 : Fin 16).val + 1 ∧
    unit.sp.val = 0 := by decide
theorem witness_CallPushesAdvancedPc :
    unit.sp.val < 16 ∧ { unit with sp := 15 }.sp.val < 16 ∧ { unit with sp := 16 }.sp.val = 16 := by decide
theorem witness_RetReturnsAfterCall : { unit with sp := 15 }.sp.val < 16 := by decide
theorem witness_ImmediateSkips : getV unit 0x3 = 0x00 ∧ getV unit 0x3 ≠ 0xFF := by decide
theorem witness_RegisterSkips :
    getV unit 0x1 = getV unit 0x2 ∧ getV (withRegs [(0x1, 0xFF)] unit) 0x1 ≠ getV (withRegs [(0x1, 0xFF)] unit) 0x2 := by
  decide
theorem witness_KeySkips :
    (getV (withRegs [(0x2, 15)] unit) 0x2).toNat = (15 : Fin 16).val ∧
    16 ≤ (getV (withRegs [(0x2, 16)] unit) 0x2).toNat ∧ keyDown unit 15 = false ∧
    keyDown { unit with keys := latchOfPort 0x8000 } 15 = true := by decide
theorem witness_AddRegistersSetsCarry :
    (0x1#4 ≠ vf) ∧ 255 < (getV (withRegs [(0x1, 0xFF), (0x2, 1)] unit) 0x1).toNat +
      (getV (withRegs [(0x1, 0xFF), (0x2, 1)] unit) 0x2).toNat ∧
    (getV (withRegs [(0x1, 0xFF)] unit) 0x1).toNat + (getV (withRegs [(0x1, 0xFF)] unit) 0x2).toNat ≤ 255 := by decide
theorem witness_SubSetsStrictNoBorrow :
    (getV unit 0x2).toNat < (getV (withRegs [(0x1, 1)] unit) 0x1).toNat ∧
    (getV unit 0x1).toNat ≤ (getV unit 0x2).toNat := by decide
theorem witness_SubnSetsStrictNoBorrow :
    (getV unit 0x1).toNat < (getV (withRegs [(0x2, 1)] unit) 0x2).toNat ∧
    (getV unit 0x2).toNat ≤ (getV unit 0x1).toNat := by decide
theorem witness_ShiftsMoveOneBitToVf : (0xE#4 ≠ vf) := by decide
theorem witness_BcdStoresDigits :
    indexAddr (withIdx 0xFFD unit) 2 ≤ 0xFFF ∧ 0xFFF < indexAddr (withIdx 0xFFE unit) 2 := by decide
theorem witness_DumpStoresRegisters :
    indexAddr (withIdx 0xFF0 unit) (0xF#4).toNat ≤ 0xFFF ∧ 0xFFF < indexAddr (withIdx 0xFF1 unit) (0xF#4).toNat := by
  decide
theorem witness_LoadReadsRegisters :
    indexAddr (withIdx 0xFFF unit) (0x0#4).toNat ≤ 0xFFF ∧ 0xFFF < indexAddr (withIdx 0x1000 unit) (0x0#4).toNat := by
  decide
theorem witness_DumpThenLoadRestores : indexAddr (withIdx 0xFF0 unit) (0xF#4).toNat ≤ 0xFFF := by decide
theorem witness_StoredBytesAreFetchedNext :
    0x1#4 ≤ 0xF#4 ∧ { unit with idx := 0xFF0, pc := 0xFF0 }.idx = { unit with idx := 0xFF0, pc := 0xFF0 }.pc ∧
    indexAddr { unit with idx := 0xFF0, pc := 0xFF0 } (0xF#4).toNat ≤ 0xFFF := by decide
theorem witness_WaitForKeyTakesHighest :
    (keyDown { unit with keys := latchOfPort 0x8001 } 15 = true ∧
      ∀ j : Fin 16, 15 < j → keyDown { unit with keys := latchOfPort 0x8001 } j = false) ∧
    (∀ j : Fin 16, keyDown unit j = false) := by decide
theorem witness_BlockedStepOnlyTicks : AwaitingKey 0x0000 (unit.withFetchWord 16 0xFF0A) :=
  ⟨by decide, ⟨0xF, by decide⟩, rfl⟩

end Sys2Proof.Tests
end

section
/-! ## The ignored nibble under the two policies (R58, R62; D14) -/

namespace Sys2Proof.Machine

/-- A unit that can fetch dispatches the word at PC in the fetched state, and then ends the step (R50, R53). -/
theorem stepWith_of_canFetch (keys : BitVec 16) (rnd : Byte) (s : State) (h : CanFetch s) :
    stepWith keys rnd s = finishStep (dispatchWord (wordAtPc s) (fetchedState keys rnd s)) := by
  obtain ⟨hphase, hpc⟩ := h
  have hfetch : fetch (beginStep keys rnd s) = .ok (wordAtPc s, fetchedState keys rnd s) := if_pos hpc
  simp only [stepWith, hphase, runStep, hfetch]

/-- Under `ignore` a word that decodes is accepted, whatever its ignored nibble. -/
theorem decodeUnder_ignore_of_decode {w : Word} {i : Instr} (h : decode w = .ok i) :
    decodeUnder .ignore w = .ok i := by
  simp only [decodeUnder, h]

/-- Under `refuse` a word that decodes with a non-zero ignored nibble is refused. -/
theorem decodeUnder_refuse_of_ignoredNibble_ne_zero {w : Word} {i : Instr} (h : decode w = .ok i)
    (hu : ignoredNibble i ≠ 0x0#4) : decodeUnder .refuse w = .error .ignoredNibble := by
  simp only [decodeUnder, h, if_neg hu]

/-- A word the unit's policy refuses has no transition. -/
theorem dispatchWord_of_refused {w : Word} {s : State} (h : decodeUnder s.cfg.policy w = .error .ignoredNibble) :
    dispatchWord w s = .refused .ignoredNibble := by
  simp only [dispatchWord, h]

/-- A unit with the policy `refuse` refuses a step that fetches a word with a non-zero ignored nibble. -/
theorem stepWith_refuses_ignoredNibble (keys : BitVec 16) (rnd : Byte) (s : State) (i : Instr) (hs : CanFetch s)
    (hi : decode (wordAtPc s) = .ok i) (hu : ignoredNibble i ≠ 0x0#4) (hp : s.cfg.policy = .refuse) :
    stepWith keys rnd s = .refused .ignoredNibble := by
  have hpolicy : (fetchedState keys rnd s).cfg.policy = .refuse := hp
  have hrefused : decodeUnder (fetchedState keys rnd s).cfg.policy (wordAtPc s) = .error .ignoredNibble :=
    hpolicy ▸ decodeUnder_refuse_of_ignoredNibble_ne_zero hi hu
  rw [stepWith_of_canFetch keys rnd s hs, dispatchWord_of_refused hrefused]
  rfl

/-- The meaning of CLS, RET, SE Vx, Vy and SNE Vx, Vy does not read the ignored nibble. -/
theorem exec_ignores_nibble (u x y : Nibble) (s : State) :
    exec (.cls u) s = exec (.cls 0x0) s ∧ exec (.ret u) s = exec (.ret 0x0) s ∧
      exec (.seReg x y u) s = exec (.seReg x y 0x0) s ∧ exec (.sneReg x y u) s = exec (.sneReg x y 0x0) s :=
  ⟨rfl, rfl, rfl, rfl⟩

/-- Settles O6: the four meanings do not read the nibble, and the decoder refuses it under `refuse` alone. -/
theorem ignoredNibblePolicyHolds : Obligations.IgnoredNibblePolicyHolds :=
  ⟨exec_ignores_nibble, stepWith_refuses_ignoredNibble, fun _ _ => decodeUnder_ignore_of_decode⟩

end Sys2Proof.Machine
end

section
/-! ## What an instruction can do, and the whole-machine rules that follow (10_state.md R17 to R28, R54) -/

namespace Sys2Proof.Machine

/-! ### Completed executions -/

/-- What an execution that completes may make of VF (R17). -/
def VfRule (i : Instr) (s t : State) : Prop :=
  (writesFlag i = false → destination i ≠ some vf → getV t vf = getV s vf) ∧
    (writesFlag i = true → getV t vf = 0x00#8 ∨ getV t vf = 0x01#8)

/-- The next states of an instruction that completes without a fault, by the state elements it may write. `exec_outcome`
ties it to `exec`. The bound of `counter` is R54's, from a state in which a fetch has just advanced PC. -/
inductive Completes (i : Instr) (s : State) : State → Prop where
  | noOp (hflag : writesFlag i = false) : Completes i s s
  | registers (v : RegFile) (hvf : VfRule i s { s with v := v }) : Completes i s { s with v := v }
  | counter (p : Word) (hflag : writesFlag i = false)
      (hp : 2 ≤ s.pc.toNat → s.pc.toNat ≤ 0x1000 → p.toNat ≤ 0x10FE) : Completes i s { s with pc := p }
  | index (w : Word) (hi : (∃ nnn, i = .ldI nnn) ∨ (∃ x, i = .addI x) ∨ ∃ x, i = .ldF x) :
      Completes i s { s with idx := w }
  | timers (dt st : Byte) (hflag : writesFlag i = false) : Completes i s { s with dt := dt, st := st }
  | memory (m : Memory) (hi : (∃ x, i = .ldB x) ∨ ∃ x, i = .dump x)
      (hwf : Memory.wf s.cfg.font s.mem → Memory.wf s.cfg.font m) : Completes i s { s with mem := m }
  | push (nnn : Addr) (hi : i = .call nnn) (h : s.sp.val < 16) :
      Completes i s
        { s with stack := s.stack.set s.sp.val s.pc h, sp := ⟨s.sp.val + 1, by omega⟩, pc := addrWord nnn }
  | pop (u : Nibble) (hi : i = .ret u) (h : 0 < s.sp.val) :
      Completes i s { s with sp := ⟨s.sp.val - 1, by omega⟩, pc := s.stack[s.sp.val - 1]'(by omega) }
  | clear (u : Nibble) (hi : i = .cls u) : Completes i s { s with disp := blankDisplay }
  | draw (x y n : Nibble) (hi : i = .drw x y n) (d : Display) (collision : Bool) :
      Completes i s { setV { s with disp := d } vf (flagByte collision) with dchg := true }

theorem flagByte_eq_zero_or_one (c : Bool) : flagByte c = 0x00#8 ∨ flagByte c = 0x01#8 := by
  cases c
  · exact .inl rfl
  · exact .inr rfl

/-- An instruction that is none of the six follows the rule of VF when it keeps a VF that is not its destination. -/
theorem vfRule_of_keeps {i : Instr} {s t : State} (hflag : writesFlag i = false)
    (hkeep : destination i ≠ some vf → getV t vf = getV s vf) : VfRule i s t :=
  ⟨fun _ => hkeep, fun h => Bool.noConfusion (hflag.symm.trans h)⟩

/-- One of the six follows the rule of VF when it leaves a flag there. -/
theorem vfRule_of_flag {i : Instr} {s t : State} (c : Bool) (hflag : writesFlag i = true)
    (hvf : getV t vf = flagByte c) : VfRule i s t :=
  ⟨fun h => Bool.noConfusion (h.symm.trans hflag), fun _ => hvf ▸ flagByte_eq_zero_or_one c⟩

/-- An instruction that is none of the six and writes its destination register alone completes. -/
theorem completes_setV {i : Instr} {s : State} (x : Nibble) (b : Byte) (hflag : writesFlag i = false)
    (hdest : destination i = some x) : Completes i s (setV s x b) := by
  refine .registers _ (vfRule_of_keeps hflag fun hne => ?_)
  have hx : x ≠ vf := fun e => hne (hdest.trans (congrArg some e))
  exact getV_setV_other s x vf b hx

/-- One of the six that writes a result and then the flag completes. -/
theorem completes_setResultAndFlag {i : Instr} {s : State} (x : Nibble) (b : Byte) (c : Bool)
    (hflag : writesFlag i = true) : Completes i s (setResultAndFlag s x b c) :=
  .registers _ (vfRule_of_flag c hflag (getV_setV_same (setV s x b) vf (flagByte c)))

/-- A skip adds 2 to a PC of at most 0x1000, or nothing. -/
theorem completes_skipIf {i : Instr} {s : State} (c : Bool) (hflag : writesFlag i = false) :
    Completes i s (skipIf c s) := by
  refine .counter _ hflag fun _ hpc => ?_
  split
  · bv_omega
  · omega

theorem addrWord_toNat_le (nnn : Addr) : (addrWord nnn).toNat ≤ 0xFFF := by
  have := nnn.isLt
  simp only [addrWord, BitVec.truncate_eq_setWidth, BitVec.toNat_setWidth]
  omega

/-- The sum of JP V0, the farthest an instruction can jump (R54, R79). -/
theorem regWord_add_addrWord_toNat_le (s : State) (r : Nibble) (nnn : Addr) :
    (regWord s r + addrWord nnn).toNat ≤ 0x10FE := by
  have hnnn := addrWord_toNat_le nnn
  have hreg : (regWord s r).toNat ≤ 0xFF := by
    have := (getV s r).isLt
    simp only [regWord, BitVec.truncate_eq_setWidth, BitVec.toNat_setWidth]
    omega
  rw [BitVec.toNat_add]
  omega

theorem rewindPc_toNat_le (s : State) (h : 2 ≤ s.pc.toNat) (h' : s.pc.toNat ≤ 0x1000) :
    (s.pc - 2).toNat ≤ 0x10FE := by
  bv_omega

/-- LD Vx, K writes its destination, or rewinds PC (R103). -/
theorem completes_ldVxK (x : Nibble) (s : State) :
    ∃ t, exec (.ldVxK x) s = .next t ∧ Completes (.ldVxK x) s t := by
  refine ⟨_, rfl, ?_⟩
  split
  · exact completes_setV x _ rfl rfl
  · exact .counter _ rfl (rewindPc_toNat_le s)

/-- LD B stores three bytes inside memory, which stays canonical. -/
theorem wf_bcdMemory (x : Nibble) (s : State) (h : indexAddr s 2 ≤ 0xFFF) (hwf : Memory.wf s.cfg.font s.mem) :
    Memory.wf s.cfg.font (bcdMemory x s) := by
  refine Memory.wf_writeAll _ _ _ _ hwf ?_
  simp only [indexAddr, List.length_cons, List.length_nil] at h ⊢
  omega

/-- LD Vx, [I] leaves VF alone unless VF is the last register it loads (R17, R101). -/
theorem vfRule_load (x : Nibble) (s : State) (v : RegFile)
    (hv : ∀ q : Nibble, x < q → v[q.toNat]'(q.isLt) = getV s q) : VfRule (.load x) s { s with v := v } := by
  refine vfRule_of_keeps rfl fun hne => hv vf ?_
  have hx : x ≠ vf := fun e => hne (congrArg some e)
  unfold vf at hx ⊢
  bv_omega

/-! ### Every instruction completes or takes its fault -/

/-- Everything an instruction can do: it answers a next state, completed or with its one kind of fault taken. -/
theorem exec_outcome (i : Instr) (s : State) :
    ∃ t, exec i s = .next t ∧ (Completes i s t ∨ ∃ c, faultKind i = some c ∧ t = enterFault c s) := by
  cases i with
  | cls u => exact ⟨_, rfl, .inl (.clear u rfl)⟩
  | sys nnn => exact ⟨_, rfl, .inl (.noOp rfl)⟩
  | jp nnn => exact ⟨_, rfl, .inl (.counter _ rfl fun _ _ => (addrWord_toNat_le nnn).trans (by decide))⟩
  | jpV0 nnn => exact ⟨_, rfl, .inl (.counter _ rfl fun _ _ => regWord_add_addrWord_toNat_le s _ nnn)⟩
  | seImm | sneImm | seReg | sneReg => exact ⟨_, rfl, .inl (completes_skipIf _ rfl)⟩
  | ldImm | addImm | ldReg | orReg | andReg | xorReg | rnd | ldVxDt =>
    exact ⟨_, rfl, .inl (completes_setV _ _ rfl rfl)⟩
  | addReg | subReg | shr | subnReg | shl => exact ⟨_, rfl, .inl (completes_setResultAndFlag _ _ _ rfl)⟩
  | ldI nnn => exact ⟨_, rfl, .inl (.index _ (.inl ⟨nnn, rfl⟩))⟩
  | addI x => exact ⟨_, rfl, .inl (.index _ (.inr (.inl ⟨x, rfl⟩)))⟩
  | ldF x => exact ⟨_, rfl, .inl (.index _ (.inr (.inr ⟨x, rfl⟩)))⟩
  | ldDtVx | ldStVx => exact ⟨_, rfl, .inl (.timers _ _ rfl)⟩
  | ldVxK x =>
    obtain ⟨t, e, h⟩ := completes_ldVxK x s
    exact ⟨t, e, .inl h⟩
  | ret u =>
    rcases execRet_cases u s with ⟨h, e⟩ | ⟨_, e⟩
    · exact ⟨_, e, .inl (.pop u rfl h)⟩
    · exact ⟨_, e, .inr ⟨_, rfl, rfl⟩⟩
  | call nnn =>
    rcases execCall_cases nnn s with ⟨h, e⟩ | ⟨_, e⟩
    · exact ⟨_, e, .inl (.push nnn rfl h)⟩
    · exact ⟨_, e, .inr ⟨_, rfl, rfl⟩⟩
  | skp x =>
    rcases execSkp_cases x s with ⟨k, _, e⟩ | ⟨_, e⟩
    · exact ⟨_, e, .inl (completes_skipIf _ rfl)⟩
    · exact ⟨_, e, .inr ⟨_, rfl, rfl⟩⟩
  | sknp x =>
    rcases execSknp_cases x s with ⟨k, _, e⟩ | ⟨_, e⟩
    · exact ⟨_, e, .inl (completes_skipIf _ rfl)⟩
    · exact ⟨_, e, .inr ⟨_, rfl, rfl⟩⟩
  | drw x y n =>
    rcases execDrw_cases x y n s with ⟨d, e, _⟩ | ⟨_, e⟩
    · exact ⟨_, e, .inl (.draw x y n rfl d.1 d.2)⟩
    · exact ⟨_, e, .inr ⟨_, rfl, rfl⟩⟩
  | ldB x =>
    rcases execLdB_cases x s with ⟨h, e⟩ | ⟨_, e⟩
    · exact ⟨_, e, .inl (.memory _ (.inl ⟨x, rfl⟩) (wf_bcdMemory x s h))⟩
    · exact ⟨_, e, .inr ⟨_, rfl, rfl⟩⟩
  | dump x =>
    rcases execDump_cases x s with ⟨m, e, _, _, _, hwf⟩ | ⟨_, e⟩
    · exact ⟨_, e, .inl (.memory m (.inr ⟨x, rfl⟩) hwf)⟩
    · exact ⟨_, e, .inr ⟨_, rfl, rfl⟩⟩
  | load x =>
    rcases execLoad_cases x s with ⟨v, e, _, _, hv⟩ | ⟨_, e⟩
    · exact ⟨_, e, .inl (.registers v (vfRule_load x s v hv))⟩
    · exact ⟨_, e, .inr ⟨_, rfl, rfl⟩⟩

/-- The next state of an instruction is a completed one or its fault, taken. -/
theorem exec_completes_or_faults {i : Instr} {s t : State} (h : exec i s = .next t) :
    Completes i s t ∨ ∃ c, faultKind i = some c ∧ t = enterFault c s := by
  obtain ⟨u, hu, hcases⟩ := exec_outcome i s
  obtain rfl : u = t := Host.Outcome.next.inj (hu.symm.trans h)
  exact hcases

/-- An instruction that ends without a fault has completed. -/
theorem exec_completes {i : Instr} {s t : State} (h : exec i s = .next t) (ht : NoFault t) : Completes i s t := by
  rcases exec_completes_or_faults h with hc | ⟨c, _, rfl⟩
  · exact hc
  · cases ht

/-! ### The invariant -/

/-- What the invariant gives in the state a fetch leaves: PC has been advanced from at most 0xFFE (R53, R54). -/
def FetchedInv (s : State) : Prop :=
  Memory.wf s.cfg.font s.mem ∧ 2 ≤ s.pc.toNat ∧ s.pc.toNat ≤ 0x1000 ∧ ReturnsInReach s

/-- A faulted unit has canonical memory, and nothing else is asked of it. -/
theorem unitInv_enterFault (c : Fault) (s : State) : UnitInv (enterFault c s) :=
  ⟨Memory.wf_ofBytes _ _, fun h => by cases h⟩

theorem returnsInReach_push {s : State} (hpc : s.pc.toNat ≤ 0x1000) (hret : ReturnsInReach s) (h : s.sp.val < 16)
    (target : Word) :
    ReturnsInReach { s with stack := s.stack.set s.sp.val s.pc h, sp := ⟨s.sp.val + 1, by omega⟩, pc := target } := by
  intro k hk
  by_cases hks : s.sp.val = k.val
  · simpa [hks] using hpc
  · have hlt : k.val < s.sp.val := by
      simp only at hk
      omega
    simpa [hks] using hret k hlt

/-- A completed execution in the state a fetch leaves meets the invariant. -/
theorem unitInv_of_completes {i : Instr} {s t : State} (hs : FetchedInv s) (h : Completes i s t) : UnitInv t := by
  obtain ⟨hwf, hlo, hhi, hret⟩ := hs
  have hpc : PcInReach s := by
    unfold PcInReach
    omega
  cases h with
  | counter p _ hp => exact ⟨hwf, fun _ => ⟨hp hlo hhi, hret⟩⟩
  | memory m _ hm => exact ⟨hm hwf, fun _ => ⟨hpc, hret⟩⟩
  | push nnn _ h =>
    exact ⟨hwf, fun _ => ⟨(addrWord_toNat_le nnn).trans (by decide), returnsInReach_push hhi hret h _⟩⟩
  | pop u _ h =>
    have htop := hret ⟨s.sp.val - 1, by omega⟩ (Nat.sub_lt h Nat.one_pos)
    exact ⟨hwf, fun _ => ⟨htop.trans (by decide), fun k hk => hret k (Nat.lt_of_lt_of_le hk (Nat.sub_le _ _))⟩⟩
  | noOp | registers | index | timers | clear | draw => exact ⟨hwf, fun _ => ⟨hpc, hret⟩⟩

/-- Every instruction, executed in the state a fetch leaves, answers a state that meets the invariant. -/
theorem exec_keeps_invariant {i : Instr} {s t : State} (hs : FetchedInv s) (h : exec i s = .next t) : UnitInv t := by
  rcases exec_completes_or_faults h with hc | ⟨c, _, rfl⟩
  · exact unitInv_of_completes hs hc
  · exact unitInv_enterFault c s

/-- The fetch leaves PC between 2 and 0x1000. -/
theorem fetchedInv_fetchedState (keys : BitVec 16) (rnd : Byte) {s : State} (hs : UnitInv s) (hf : CanFetch s) :
    FetchedInv (fetchedState keys rnd s) := by
  obtain ⟨hwf, hreach⟩ := hs
  obtain ⟨hphase, hpc⟩ := hf
  obtain ⟨-, hret⟩ := hreach (isFaulted_of_loaded s hphase)
  have hadd : (s.pc + 2).toNat = s.pc.toNat + 2 := by
    bv_omega
  exact ⟨hwf, hadd ▸ Nat.le_add_left 2 _, hadd ▸ Nat.add_le_add_right hpc 2, hret⟩

theorem unitInv_of_fetchedInv {s : State} (hs : FetchedInv s) : UnitInv s :=
  unitInv_of_completes (i := .sys 0x000) hs (.noOp rfl)

/-- The tick of the timers writes nothing the invariant speaks of. -/
theorem unitInv_endStep {s : State} (hs : UnitInv s) : UnitInv (endStep s) := by
  unfold endStep
  split <;> exact hs

/-- A step with any payload keeps the invariant: it takes the fetch's fault, does nothing, or executes. -/
theorem stepWith_keeps_invariant {keys : BitVec 16} {rnd : Byte} {s t : State} (hs : UnitInv s)
    (h : stepWith keys rnd s = .next t) : UnitInv t := by
  obtain ⟨-, ⟨-, rfl⟩ | ⟨hf, -, rfl⟩ | ⟨hf, i, u, -, hx, rfl⟩⟩ := stepWith_cases keys rnd s t h
  · exact unitInv_enterFault _ _
  · exact unitInv_endStep (unitInv_of_fetchedInv (fetchedInv_fetchedState keys rnd hs hf))
  · exact unitInv_endStep (exec_keeps_invariant (fetchedInv_fetchedState keys rnd hs hf) hx)

/-- Taking the payload writes nothing the invariant speaks of. -/
theorem unitInv_takeInput {s : State} (hs : UnitInv s) : UnitInv (takeInput s) := by
  unfold takeInput
  split <;> exact hs

/-- Settles O21: every instruction keeps the stronger bounds that a fetch leaves within the invariant. -/
theorem stepKeepsInvariant : Obligations.StepKeepsInvariant :=
  fun _ _ hs h => stepWith_keeps_invariant (unitInv_takeInput hs) h

/-- A new unit has an empty list of cells, PC at 0x200 and an empty stack (R125). -/
theorem unitInv_newUnit (s : State) : UnitInv (newUnit s) :=
  ⟨Memory.wf_nil _, fun _ => ⟨show (0x0200#16).toNat ≤ 0x10FE by decide, fun k hk => absurd hk (Nat.not_lt_zero k.val)⟩⟩

/-- `load` writes an image that fits, or takes LOAD_OVERSIZE, or is refused (R126, R127). -/
theorem loadUnit_keeps_invariant {bytes : List Byte} {s t : State} (hs : UnitInv s)
    (h : loadUnit bytes s = .next t) : UnitInv t := by
  obtain ⟨hwf, hreach⟩ := hs
  unfold loadUnit at h
  split at h
  case h_1 hphase =>
    obtain rfl := Host.Outcome.next.inj h
    unfold loadImage
    split
    next hfit =>
      exact ⟨Memory.wf_writeAll _ _ _ _ hwf hfit, fun _ => hreach (by simp [isFaulted, hphase])⟩
    next => exact unitInv_enterFault _ _
  case h_2 => cases h
  case h_3 => cases h

theorem transact_keeps_invariant {x : Transaction} {s t : State} (hs : UnitInv s) (h : transact x s = .next t) :
    UnitInv t := by
  cases x with
  | new => exact Host.Outcome.next.inj h ▸ unitInv_newUnit s
  | load bytes => exact loadUnit_keeps_invariant hs h
  | step keys rnd => exact stepWith_keeps_invariant hs h

/-- A run that answers a next state is its first transaction and then the rest. -/
theorem runHost_cons_eq_next {x : Transaction} {xs : List Transaction} {s t : State}
    (h : runHost (x :: xs) s = .next t) : ∃ u, transact x s = .next u ∧ runHost xs u = .next t := by
  unfold runHost at h
  split at h
  · exact ⟨_, ‹_›, h⟩
  · cases h
  · cases h

/-- Settles O22, by induction on the transactions of the run. -/
theorem hostRunKeepsInvariant : Obligations.HostRunKeepsInvariant := by
  intro xs
  induction xs with
  | nil => exact fun s t hs h => Host.Outcome.next.inj h ▸ hs
  | cons x xs ih =>
    intro s t hs h
    obtain ⟨u, hx, hxs⟩ := runHost_cons_eq_next h
    exact ih u t (transact_keeps_invariant hs hx) hxs

/-! ### What each state element is written by -/

/-- Settles O25: of the completed executions only a store writes memory. -/
theorem onlyStoresChangeMemory : Obligations.OnlyStoresChangeMemory := by
  intro i s t _ h ht hldB hdump
  cases exec_completes h ht with
  | memory _ hi _ =>
    obtain ⟨x, hi⟩ | ⟨x, hi⟩ := hi
    · exact absurd hi (hldB x)
    · exact absurd hi (hdump x)
  | _ => exact ⟨rfl, fun _ => rfl⟩

/-- Every completed execution follows the rule of VF: it writes no register, or leaves its flag there. -/
theorem vfRule_of_completes {i : Instr} {s t : State} (h : Completes i s t) : VfRule i s t := by
  cases h with
  | registers v hvf => exact hvf
  | draw x y n hi d collision =>
    exact vfRule_of_flag collision (hi ▸ rfl) (getV_setV_same { s with disp := d } vf (flagByte collision))
  | noOp hflag | counter _ hflag _ | timers _ _ hflag => exact vfRule_of_keeps hflag fun _ => rfl
  | index _ hi =>
    obtain ⟨_, rfl⟩ | ⟨_, rfl⟩ | ⟨_, rfl⟩ := hi <;> exact vfRule_of_keeps rfl fun _ => rfl
  | memory _ hi _ =>
    obtain ⟨_, rfl⟩ | ⟨_, rfl⟩ := hi <;> exact vfRule_of_keeps rfl fun _ => rfl
  | push _ hi _ | pop _ hi _ | clear _ hi => exact vfRule_of_keeps (hi ▸ rfl) fun _ => rfl

/-- Settles O26: every completed execution follows the rule of VF. -/
theorem vfChangesOnlyAsFlagOrDestination : Obligations.VfChangesOnlyAsFlagOrDestination :=
  fun _ _ _ _ h ht => vfRule_of_completes (exec_completes h ht)

/-- Settles O27: of the completed executions only an index write writes I. -/
theorem onlyThreeInstructionsWriteIndex : Obligations.OnlyThreeInstructionsWriteIndex := by
  intro i s t _ h ht hldI haddI hldF
  cases exec_completes h ht with
  | index _ hi =>
    obtain ⟨nnn, hi⟩ | ⟨x, hi⟩ | ⟨x, hi⟩ := hi
    · exact absurd hi (hldI nnn)
    · exact absurd hi (haddI x)
    · exact absurd hi (hldF x)
  | _ => rfl

/-- Settles O28: of the completed executions only a push and a pop write the stack and SP. -/
theorem onlyCallAndRetTouchStack : Obligations.OnlyCallAndRetTouchStack := by
  intro i s t _ h ht hcall hret
  cases exec_completes h ht with
  | push nnn hi _ => exact absurd hi (hcall nnn)
  | pop u hi _ => exact absurd hi (hret u)
  | _ => exact ⟨rfl, rfl⟩

/-- Settles O29: of the completed executions only a clear and a draw write the display. -/
theorem onlyClearAndDrawChangeDisplay : Obligations.OnlyClearAndDrawChangeDisplay := by
  intro i s t _ h ht hcls hdrw
  cases exec_completes h ht with
  | clear u hi => exact absurd hi (hcls u)
  | draw x y n hi _ _ => exact absurd hi (hdrw x y n)
  | _ => rfl

/-- Settles O30: no completed execution writes these fields, and a fault keeps the parameters and the inputs. -/
theorem instructionsKeepLifecycleAndInputs : Obligations.InstructionsKeepLifecycleAndInputs := by
  intro i s t _ h
  rcases exec_completes_or_faults h with hc | ⟨c, _, rfl⟩
  · cases hc <;> exact ⟨rfl, rfl, rfl, fun _ => ⟨rfl, rfl⟩⟩
  · exact ⟨enterFault_cfg s c, enterFault_rnd s c, enterFault_inputs s c, fun hn => by cases hn⟩

end Sys2Proof.Machine
end

section
/-! ## Memory accesses, a stored fetch word and a blocked step (R20, R29, R135) -/

namespace Sys2Proof.Machine

/-- Settles O24: a write inside the address space succeeds and changes its own byte; outside, both accesses fault. -/
theorem memoryIsPlain : Obligations.MemoryIsPlain := by
  intro s a b
  rcases memWrite_cases s a b with ⟨hin, hw⟩ | ⟨hout, hw⟩
  · refine ⟨fun _ => ⟨_, hw, ?_, fun c hc => ?_, rfl⟩, fun hout => absurd hin (Nat.not_le.mpr hout)⟩
    · rw [memRead_eq_ok _ _ hin, memByte_write, if_pos rfl]
    · rw [memByte_write, if_neg hc.symm]
  · exact ⟨fun hin => absurd hin (Nat.not_le.mpr hout), fun _ => ⟨hw, memRead_eq_error s a hout⟩⟩

/-- Settles O57: the dump's first two bytes are the two the fetch reads. -/
theorem storedBytesAreFetchedNext : Obligations.StoredBytesAreFetchedNext := by
  intro x s hx hidx hin
  rcases execDump_cases x s with ⟨m, e, _, hstored, _, _⟩ | ⟨hout, _⟩
  · refine ⟨_, e, ?_⟩
    have hhi : Memory.read s.cfg.font m s.pc.toNat = getV s 0x0#4 := by
      simpa [indexAddr, hidx] using hstored 0x0#4 (Nat.zero_le x.toNat)
    have hlo : Memory.read s.cfg.font m (s.pc.toNat + 1) = getV s 0x1#4 := by
      simpa [indexAddr, hidx] using hstored 0x1#4 hx
    exact congrArg₂ wordOfBytes hhi hlo
  · exact absurd hin (Nat.not_le.mpr hout)

/-- LD Vx, K has no ignored nibble, so every policy accepts it. -/
theorem decodeUnder_ldVxK (p : IgnoredNibblePolicy) {w : Word} {x : Nibble} (h : decode w = .ok (.ldVxK x)) :
    decodeUnder p w = .ok (.ldVxK x) := by
  cases p <;> simp [decodeUnder, h, ignoredNibble]

theorem dispatchWord_of_accepted {w : Word} {s : State} {i : Instr} (h : decodeUnder s.cfg.policy w = .ok i) :
    dispatchWord w s = exec i s := by
  simp only [dispatchWord, h]

/-- The latch of the port 0 has no key pressed. -/
theorem keyDown_fetchedState_zero (rnd : Byte) (s : State) (k : Fin 16) :
    keyDown (fetchedState 0x0000#16 rnd s) k = false := by
  refine (latchOfPort_getElem 0x0000#16 k).trans ?_
  simp

/-- With no key pressed the scan finds none. -/
theorem highestKey_eq_none {s : State} (h : ∀ k, keyDown s k = false) : highestKey s = none := by
  unfold highestKey
  rw [scan_eq_getLast]
  simp [h]

theorem execLdVxK_of_no_key (x : Nibble) {s : State} (h : ∀ k, keyDown s k = false) :
    exec (.ldVxK x) s = .next (rewindPc s) := by
  simp only [exec, execLdVxK, highestKey_eq_none h]

/-- The rewind of a blocked step undoes the advance of its fetch. -/
theorem rewindPc_fetchedState (keys : BitVec 16) (rnd : Byte) (s : State) :
    rewindPc (fetchedState keys rnd s) = beginStep keys rnd s := by
  have hpc : s.pc + 2 - 2 = s.pc := BitVec.add_sub_cancel _ _
  simp only [rewindPc, fetchedState, beginStep, hpc]

/-- A blocked step is its first lines and the tick of the timers (R50, R103). -/
theorem stepWith_of_awaitingKey {keys : BitVec 16} (rnd : Byte) {s : State} (h : AwaitingKey keys s) :
    stepWith keys rnd s = .next (tickTimers (beginStep keys rnd s)) := by
  obtain ⟨hf, ⟨x, hx⟩, rfl⟩ := h
  have hrunning : isFaulted (beginStep 0x0000#16 rnd s) = false := isFaulted_of_loaded _ hf.1
  rw [stepWith_of_canFetch _ _ _ hf, dispatchWord_of_accepted (decodeUnder_ldVxK _ hx),
    execLdVxK_of_no_key x (keyDown_fetchedState_zero rnd s), rewindPc_fetchedState]
  simp only [finishStep, endStep, hrunning, Bool.false_eq_true, if_false]

/-- Settles O60: a blocked step latches the keys, clears DCHG and ticks, and nothing else. -/
theorem blockedStepOnlyTicks : Obligations.BlockedStepOnlyTicks := by
  intro keys rnd s h
  refine ⟨_, stepWith_of_awaitingKey rnd h, rfl, rfl, ?_, decrement_toNat s.dt, decrement_toNat s.st, rfl, fun _ => rfl⟩
  obtain ⟨-, -, rfl⟩ := h
  exact keyDown_fetchedState_zero rnd s

end Sys2Proof.Machine
end

section
/-! ## The outputs (R32, R106) -/

namespace Sys2Proof.Machine

theorem soundActive_iff (s : State) : soundActive s = true ↔ s.st.toNat ≠ 0 := by
  simp [soundActive, BitVec.toNat_eq]

theorem faultOut_of_not_faulted {s : State} (h : isFaulted s = false) : faultOut s = 0 := by
  unfold isFaulted at h
  unfold faultOut
  cases hp : s.phase with
  | faulted c => simp [hp] at h
  | fresh => rfl
  | loaded => rfl

theorem faultOut_of_faulted {s : State} {c : Fault} (h : s.phase = .faulted c) : faultOut s = faultCode c := by
  simp only [faultOut, h]

/-- Settles O19: each output is read off its field, and `fault` off the phase. -/
theorem outputsReportState : Obligations.OutputsReportState := fun s =>
  ⟨soundActive_iff s, rfl, rfl, faultOut_of_not_faulted, faultOut_of_faulted, faultOut_of_faulted,
    faultOut_of_faulted, faultOut_of_faulted, faultOut_of_faulted, faultOut_of_faulted⟩

end Sys2Proof.Machine
end

section
/-! ## The decoder against the encoder, and the fetch of a word (R33, R47, R48, R53, R65) -/

namespace Sys2Proof

/-! ### The bytes of a word (R33) -/

/-- The byte at the lower address is bits 15..8 of the word of two bytes. -/
@[simp] theorem wordOfBytes_high (hi lo : Byte) : (wordOfBytes hi lo).extractLsb' 8 8 = hi :=
  (extract_high 8 8 hi lo 0 8).trans (extract_all 8 hi)

/-- The byte at the higher address is bits 7..0 of the word of two bytes. -/
@[simp] theorem wordOfBytes_low (hi lo : Byte) : (wordOfBytes hi lo).extractLsb' 0 8 = lo :=
  (extract_low 8 8 hi lo 0 8 (by decide)).trans (extract_all 8 lo)

/-- A word is the word of its two bytes. -/
@[simp] theorem wordOfBytes_bytes (w : Word) : wordOfBytes (w.extractLsb' 8 8) (w.extractLsb' 0 8) = w :=
  (BitVec.extractLsb'_append_extractLsb'_eq_extractLsb' rfl).trans (extract_all 16 w)

/-- At the head of any bytes the decoder of bytes reads what the decoder of words reads in the two bytes there. -/
theorem decodeBytes_bytesOfWord {w : Word} {i : Instr} (h : decode w = .ok i) (rest : List Byte) :
    decodeBytes (bytesOfWord w ++ rest) = .ok (i, rest) := by
  simp [decodeBytes, bytesOfWord, h]

/-! ### The families that dispatch further (R57 to R61) -/

theorem decode_of_family0 {w : Word} (h : fieldFamily w = 0x0#4) : decode w = decodeFamily0 w := by
  simp [decode, h]

theorem decode_of_family8 {w : Word} (h : fieldFamily w = 0x8#4) : decode w = decodeFamily8 w := by
  simp [decode, h]

theorem decode_of_familyE {w : Word} (h : fieldFamily w = 0xE#4) : decode w = decodeFamilyE w := by
  simp [decode, h]

theorem decode_of_familyF {w : Word} (h : fieldFamily w = 0xF#4) : decode w = decodeFamilyF w := by
  simp [decode, h]

/-- SYS takes what CLS and RET leave of family 0x0 (R64). -/
theorem decodeFamily0_wordA_of_sysWellFormed {nnn : Addr} (h : sysWellFormed nnn = true) :
    decodeFamily0 (wordA 0x0#4 nnn) = .ok (.sys nnn) := by
  obtain ⟨hcls, hret⟩ : nnn.extractLsb' 0 8 ≠ 0xE0#8 ∧ nnn.extractLsb' 0 8 ≠ 0xEE#8 := by
    simpa [sysWellFormed] using h
  unfold decodeFamily0
  rw [fieldKk_wordA, fieldNnn_wordA]
  split
  next e => exact absurd e hcls
  next e => exact absurd e hret
  next => rfl

/-! ### The round trip -/

/-- Every layout keeps the fields by which its instruction is found and the operands it carries. -/
theorem decode_encode (i : Instr) (h : wellFormed i = true) : decode (encode i) = .ok i := by
  cases i with
  | sys nnn =>
    exact (decode_of_family0 (fieldFamily_wordA _ _)).trans (decodeFamily0_wordA_of_sysWellFormed h)
  | cls | ret =>
    exact (decode_of_family0 (fieldFamily_wordXK _ _ _)).trans (by simp [decodeFamily0])
  | ldReg | orReg | andReg | xorReg | addReg | subReg | shr | subnReg | shl =>
    exact (decode_of_family8 (fieldFamily_wordXYN _ _ _ _)).trans (by simp [decodeFamily8])
  | skp | sknp =>
    exact (decode_of_familyE (fieldFamily_wordXK _ _ _)).trans (by simp [decodeFamilyE])
  | ldVxDt | ldVxK | ldDtVx | ldStVx | addI | ldF | ldB | dump | load =>
    exact (decode_of_familyF (fieldFamily_wordXK _ _ _)).trans (by simp [decodeFamilyF])
  | jp | call | ldI | jpV0 | seImm | sneImm | ldImm | addImm | rnd | seReg | sneReg | drw =>
    simp [encode, decode]

/-- Settles O1: the fields of an encoding are its operands, and its two bytes are its word. -/
theorem decodeInvertsEncode : Obligations.DecodeInvertsEncode := fun i h =>
  ⟨decode_encode i h, decodeBytes_bytesOfWord (decode_encode i h)⟩

end Sys2Proof

namespace Sys2Proof.Machine

theorem fetch_of_le {s : State} (h : s.pc.toNat ≤ 0xFFE) : fetch s = .ok (wordAtPc s, advancePc s) := if_pos h

theorem fetch_of_gt {s : State} (h : 0xFFE < s.pc.toNat) : fetch s = .error .fetchRange := if_neg (Nat.not_le.mpr h)

/-- Settles O8: within memory the fetch answers the word of the two bytes at PC and advances PC; above, it faults. -/
theorem fetchReadsBigEndianWord : Obligations.FetchReadsBigEndianWord := fun _ =>
  ⟨fun h => ⟨_, fetch_of_le h, wordOfBytes_high _ _, wordOfBytes_low _ _⟩, fetch_of_gt⟩

end Sys2Proof.Machine
end

section
/-! ## The decoder against the opcode map and the words R63 lists (30_encoding.md R57 to R65) -/

namespace Sys2Proof

/-! ### A decoded word is the encoding of its instruction -/

theorem wordA_of_family {w : Word} {f : Nibble} (hf : fieldFamily w = f) : wordA f (fieldNnn w) = w :=
  hf ▸ wordA_fields w

theorem wordXK_of_fields {w : Word} {f : Nibble} {kk : Byte} (hf : fieldFamily w = f) (hk : fieldKk w = kk) :
    wordXK f (fieldX w) kk = w :=
  hf ▸ hk ▸ wordXK_fields w

theorem wordXYN_of_fields {w : Word} {f n : Nibble} (hf : fieldFamily w = f) (hn : fieldN w = n) :
    wordXYN f (fieldX w) (fieldY w) n = w :=
  hf ▸ hn ▸ wordXYN_fields w

/-- What is neither CLS nor RET is a well-formed SYS (R58, R64). -/
theorem encode_of_decodeFamily0 {w : Word} {i : Instr} (hf : fieldFamily w = 0x0#4)
    (h : decodeFamily0 w = .ok i) : encode i = w ∧ wellFormed i = true := by
  unfold decodeFamily0 at h
  split at h
  case h_1 hk | h_2 hk => cases h; exact ⟨wordXK_of_fields hf hk, rfl⟩
  case h_3 hcls hret =>
    cases h
    have hkk : (fieldNnn w).extractLsb' 0 8 = fieldKk w := by
      rw [← fieldKk_wordA 0x0#4, wordA_of_family hf]
    refine ⟨wordA_of_family hf, ?_⟩
    simp only [wellFormed, sysWellFormed, hkk, Bool.and_eq_true, bne_iff_ne]
    exact ⟨hcls, hret⟩

theorem encode_of_decodeFamily8 {w : Word} {i : Instr} (hf : fieldFamily w = 0x8#4)
    (h : decodeFamily8 w = .ok i) : encode i = w ∧ wellFormed i = true := by
  unfold decodeFamily8 at h
  split at h
  case h_10 => cases h
  all_goals cases h; exact ⟨wordXYN_of_fields hf ‹_›, rfl⟩

theorem encode_of_decodeFamilyE {w : Word} {i : Instr} (hf : fieldFamily w = 0xE#4)
    (h : decodeFamilyE w = .ok i) : encode i = w ∧ wellFormed i = true := by
  unfold decodeFamilyE at h
  split at h
  case h_3 => cases h
  all_goals cases h; exact ⟨wordXK_of_fields hf ‹_›, rfl⟩

theorem encode_of_decodeFamilyF {w : Word} {i : Instr} (hf : fieldFamily w = 0xF#4)
    (h : decodeFamilyF w = .ok i) : encode i = w ∧ wellFormed i = true := by
  unfold decodeFamilyF at h
  split at h
  case h_10 => cases h
  all_goals cases h; exact ⟨wordXK_of_fields hf ‹_›, rfl⟩

/-- Settles O2, by the family of the word: its fields, put together again, are the word. -/
theorem encodeInvertsDecode : Obligations.EncodeInvertsDecode := by
  intro w i h
  unfold decode at h
  split at h
  case h_1 hf => exact encode_of_decodeFamily0 hf h
  case h_9 hf => exact encode_of_decodeFamily8 hf h
  case h_15 hf => exact encode_of_decodeFamilyE hf h
  case h_16 hf => exact encode_of_decodeFamilyF hf h
  case h_17 => cases h
  case h_2 hf | h_3 hf | h_11 hf | h_12 hf => cases h; exact ⟨wordA_of_family hf, rfl⟩
  case h_4 hf | h_5 hf | h_7 hf | h_8 hf | h_13 hf => cases h; exact ⟨wordXK_of_fields hf rfl, rfl⟩
  case h_6 hf | h_10 hf | h_14 hf => cases h; exact ⟨wordXYN_of_fields hf rfl, rfl⟩

/-! ### The words that decode to an instruction with a meaning (R57 to R63) -/

/-- Whether the decoder answers an instruction that does something: one other than SYS (R64). -/
def hasMeaning (d : Except DecodeRefusal Instr) : Bool :=
  match d with
  | .ok (.sys _) => false
  | .ok _ => true
  | .error _ => false

theorem hasMeaning_iff (d : Except DecodeRefusal Instr) :
    hasMeaning d = true ↔ ∃ i, d = .ok i ∧ ∀ nnn, i ≠ .sys nnn := by
  unfold hasMeaning
  split
  next nnn => simp
  next i hi => simpa using hi
  next => simp

theorem hasMeaning_decodeFamily0 (w : Word) :
    hasMeaning (decodeFamily0 w) = [0xE0#8, 0xEE#8].contains (fieldKk w) := by
  unfold decodeFamily0
  split <;> simp_all [hasMeaning]

theorem hasMeaning_decodeFamily8 (w : Word) : hasMeaning (decodeFamily8 w) =
    [0x0#4, 0x1#4, 0x2#4, 0x3#4, 0x4#4, 0x5#4, 0x6#4, 0x7#4, 0xE#4].contains (fieldN w) := by
  unfold decodeFamily8
  split <;> simp_all [hasMeaning]

theorem hasMeaning_decodeFamilyE (w : Word) :
    hasMeaning (decodeFamilyE w) = [0x9E#8, 0xA1#8].contains (fieldKk w) := by
  unfold decodeFamilyE
  split <;> simp_all [hasMeaning]

theorem hasMeaning_decodeFamilyF (w : Word) :
    hasMeaning (decodeFamilyF w) =
      [0x07#8, 0x0A#8, 0x15#8, 0x18#8, 0x1E#8, 0x29#8, 0x33#8, 0x55#8, 0x65#8].contains (fieldKk w) := by
  unfold decodeFamilyF
  split <;> simp_all [hasMeaning]

/-- R63 lists for family 0x8 the low nibbles that R59 does not. -/
theorem family8_lists_complementary (n : Nibble) :
    [0x8#4, 0x9#4, 0xA#4, 0xB#4, 0xC#4, 0xD#4, 0xF#4].contains n =
      !List.contains [0x0#4, 0x1#4, 0x2#4, 0x3#4, 0x4#4, 0x5#4, 0x6#4, 0x7#4, 0xE#4] n := by
  revert n
  decide

theorem decodeFamily0_ok (w : Word) : ∃ i, decodeFamily0 w = .ok i := by
  unfold decodeFamily0
  split <;> exact ⟨_, rfl⟩

/-- The one reason for which the decoder rejects a word (R63). -/
theorem decode_error {w : Word} {r : DecodeRefusal} (h : decode w = .error r) : r = .undecodable := by
  unfold decode at h
  split at h
  case h_1 =>
    obtain ⟨i, hi⟩ := decodeFamily0_ok w
    cases hi.symm.trans h
  case h_9 => unfold decodeFamily8 at h; split at h <;> cases h; rfl
  case h_15 => unfold decodeFamilyE at h; split at h <;> cases h; rfl
  case h_16 => unfold decodeFamilyF at h; split at h <;> cases h; rfl
  case h_17 => cases h; rfl
  all_goals cases h

end Sys2Proof

namespace Sys2Proof.Machine

/-- R63's list is exact: it holds the words that decode to nothing or to SYS. -/
theorem hasMeaning_decode (w : Word) : hasMeaning (decode w) = !undecodableWord w := by
  unfold undecodableWord decode
  split
  case h_1 hf => simp [hf, hasMeaning_decodeFamily0]
  case h_9 hf => rw [hasMeaning_decodeFamily8, family8_lists_complementary]; simp [hf]
  case h_15 hf => simp [hf, hasMeaning_decodeFamilyE]
  case h_16 hf => simp [hf, hasMeaning_decodeFamilyF]
  case h_17 =>
    exfalso
    generalize fieldFamily w = f at *
    revert f
    decide
  all_goals simp [hasMeaning, *]

theorem decodes_of_not_undecodableWord {w : Word} (h : undecodableWord w = false) :
    ∃ i, decode w = .ok i ∧ ∀ nnn, i ≠ .sys nnn :=
  (hasMeaning_iff _).mp (by rw [hasMeaning_decode, h]; rfl)

theorem undecodableWord_of_decode_sys {w : Word} {nnn : Addr} (h : decode w = .ok (.sys nnn)) :
    undecodableWord w = true := by
  simpa [h, hasMeaning] using hasMeaning_decode w

/-- A word of the list decodes to nothing or to SYS. -/
theorem decode_of_undecodableWord {w : Word} (h : undecodableWord w = true) :
    decode w = .error .undecodable ∨ ∃ nnn, decode w = .ok (.sys nnn) := by
  have hnot : hasMeaning (decode w) ≠ true := by simp [hasMeaning_decode, h]
  cases hd : decode w with
  | error r => exact .inl (congrArg _ (decode_error hd))
  | ok i =>
    refine .inr ?_
    by_contra hsys
    exact hnot ((hasMeaning_iff _).mpr ⟨i, hd, fun nnn hi => hsys ⟨nnn, hi ▸ rfl⟩⟩)

/-! ### The rows of the opcode map (R65) -/

theorem fieldFamily_and (w m : Word) : fieldFamily (w &&& m) = fieldFamily w &&& fieldFamily m :=
  BitVec.extractLsb'_and

theorem fieldN_and (w m : Word) : fieldN (w &&& m) = fieldN w &&& fieldN m := BitVec.extractLsb'_and

theorem fieldKk_and (w m : Word) : fieldKk (w &&& m) = fieldKk w &&& fieldKk m := BitVec.extractLsb'_and

/-- Whether R63 lists a word depends on its family, and in the four families that dispatch further on `n` or `kk`. -/
theorem undecodableWord_congr {w p : Word} (hf : fieldFamily w = fieldFamily p)
    (hn : fieldFamily p = 0x8#4 → fieldN w = fieldN p)
    (hk : fieldFamily p ∈ [0x0#4, 0xE#4, 0xF#4] → fieldKk w = fieldKk p) :
    undecodableWord w = undecodableWord p := by
  unfold undecodableWord
  rw [hf]
  by_cases h8 : fieldFamily p = 0x8#4
  · simp [h8, hn h8]
  · have hfalse8 : (fieldFamily p == 0x8#4) = false := beq_eq_false_iff_ne.mpr h8
    by_cases hlow : fieldFamily p ∈ [0x0#4, 0xE#4, 0xF#4]
    · simp [hfalse8, hk hlow]
    · simp only [List.mem_cons, List.not_mem_nil, or_false, not_or, ← beq_eq_false_iff_ne] at hlow
      simp [hfalse8, hlow]

/-- Every row's mask keeps the family, and with it the fields by which R63 lists the words of that family. -/
theorem opcodeMap_masks : ∀ r ∈ opcodeMap, r.mnemonic ≠ "SYS nnn" →
    fieldFamily r.mask = 0xF#4 ∧ (fieldFamily r.pattern = 0x8#4 → fieldN r.mask = 0xF#4) ∧
    (fieldFamily r.pattern ∈ [0x0#4, 0xE#4, 0xF#4] → fieldKk r.mask = 0xFF#8) := by decide

/-- R63 lists the pattern of no row but that of SYS. -/
theorem opcodeMap_patterns : ∀ r ∈ opcodeMap, r.mnemonic ≠ "SYS nnn" → undecodableWord r.pattern = false := by decide

/-- The row of SYS is that of family 0x0 (R64). -/
theorem opcodeMap_sys : ∀ r ∈ opcodeMap, r.mnemonic = "SYS nnn" →
    fieldFamily r.mask = 0xF#4 ∧ fieldFamily r.pattern = 0x0#4 := by decide

/-- Two rows agree where both masks look only if the later one is SYS. -/
theorem opcodeMap_disjoint : opcodeMap.Pairwise
    (fun r q => r.pattern &&& q.mask = q.pattern &&& r.mask → q.mnemonic = "SYS nnn") := by decide

/-- A word of a row other than SYS is none of R63's list. -/
theorem not_undecodableWord_of_row {w : Word} {r : OpcodeRow} (hr : r ∈ opcodeMap) (hw : w &&& r.mask = r.pattern)
    (hsys : r.mnemonic ≠ "SYS nnn") : undecodableWord w = false := by
  obtain ⟨hfamily, hn, hkk⟩ := opcodeMap_masks r hr hsys
  rw [← opcodeMap_patterns r hr hsys]
  refine undecodableWord_congr ?_ (fun h8 => ?_) (fun hlow => ?_)
  · rw [← hw, fieldFamily_and, hfamily, nibble_and_ones]
  · rw [← hw, fieldN_and, hn h8, nibble_and_ones]
  · rw [← hw, fieldKk_and, hkk hlow, byte_and_ones]

/-- A word of any row decodes. -/
theorem decodes_of_row {w : Word} {r : OpcodeRow} (hr : r ∈ opcodeMap) (hw : w &&& r.mask = r.pattern) :
    ∃ i, decode w = .ok i := by
  by_cases hsys : r.mnemonic = "SYS nnn"
  · obtain ⟨hmask, hpattern⟩ := opcodeMap_sys r hr hsys
    have hf : fieldFamily w = 0x0#4 := by
      rw [← hpattern, ← hw, fieldFamily_and, hmask, nibble_and_ones]
    rw [decode_of_family0 hf]
    exact decodeFamily0_ok w
  · obtain ⟨i, hi, -⟩ := decodes_of_not_undecodableWord (not_undecodableWord_of_row hr hw hsys)
    exact ⟨i, hi⟩

/-- Two rows of one word agree where both masks look. -/
theorem patterns_agree {w : Word} {r q : OpcodeRow} (hr : w &&& r.mask = r.pattern) (hq : w &&& q.mask = q.pattern) :
    r.pattern &&& q.mask = q.pattern &&& r.mask := by
  rw [← hr, ← hq, BitVec.and_assoc, BitVec.and_assoc, BitVec.and_comm r.mask]

theorem rows_eq_or_sys {w : Word} {r q : OpcodeRow} (hr : r ∈ opcodeMap) (hq : q ∈ opcodeMap)
    (hwr : w &&& r.mask = r.pattern) (hwq : w &&& q.mask = q.pattern) :
    r = q ∨ r.mnemonic = "SYS nnn" ∨ q.mnemonic = "SYS nnn" := by
  refine List.Pairwise.forall_of_forall_of_flip
    (R := fun r q => w &&& r.mask = r.pattern → w &&& q.mask = q.pattern →
      r = q ∨ r.mnemonic = "SYS nnn" ∨ q.mnemonic = "SYS nnn") (fun _ _ _ _ => .inl rfl) ?_ ?_ hr hq hwr hwq
  · exact opcodeMap_disjoint.imp fun h hr hq => .inr (.inr (h (patterns_agree hr hq)))
  · exact opcodeMap_disjoint.imp fun h hq hr => .inr (.inl (h (patterns_agree hr hq)))

theorem eq_sys_of_mnemonic {i : Instr} (h : mnemonicOf i = "SYS nnn") : ∃ nnn, i = .sys nnn := by
  cases i with
  | sys nnn => exact ⟨nnn, rfl⟩
  | _ => simp [mnemonicOf] at h

/-- The rows of `Laws.TableRow`, over all instructions. -/
theorem row_of_instruction (i : Instr) : Laws.TableRow.Statement i :=
  match i with
  | .cls u => Laws.TableRow.cls u
  | .ret u => Laws.TableRow.ret u
  | .sys nnn => Laws.TableRow.sys nnn
  | .jp nnn => Laws.TableRow.jp nnn
  | .call nnn => Laws.TableRow.call nnn
  | .seImm x kk => Laws.TableRow.seImm x kk
  | .sneImm x kk => Laws.TableRow.sneImm x kk
  | .seReg x y u => Laws.TableRow.seReg x y u
  | .ldImm x kk => Laws.TableRow.ldImm x kk
  | .addImm x kk => Laws.TableRow.addImm x kk
  | .ldReg x y => Laws.TableRow.ldReg x y
  | .orReg x y => Laws.TableRow.orReg x y
  | .andReg x y => Laws.TableRow.andReg x y
  | .xorReg x y => Laws.TableRow.xorReg x y
  | .addReg x y => Laws.TableRow.addReg x y
  | .subReg x y => Laws.TableRow.subReg x y
  | .shr x y => Laws.TableRow.shr x y
  | .subnReg x y => Laws.TableRow.subnReg x y
  | .shl x y => Laws.TableRow.shl x y
  | .sneReg x y u => Laws.TableRow.sneReg x y u
  | .ldI nnn => Laws.TableRow.ldI nnn
  | .jpV0 nnn => Laws.TableRow.jpV0 nnn
  | .rnd x kk => Laws.TableRow.rnd x kk
  | .drw x y n => Laws.TableRow.drw x y n
  | .skp x => Laws.TableRow.skp x
  | .sknp x => Laws.TableRow.sknp x
  | .ldVxDt x => Laws.TableRow.ldVxDt x
  | .ldVxK x => Laws.TableRow.ldVxK x
  | .ldDtVx x => Laws.TableRow.ldDtVx x
  | .ldStVx x => Laws.TableRow.ldStVx x
  | .addI x => Laws.TableRow.addI x
  | .ldF x => Laws.TableRow.ldF x
  | .ldB x => Laws.TableRow.ldB x
  | .dump x => Laws.TableRow.dump x
  | .load x => Laws.TableRow.load x

theorem matchingRow_eq_some {w : Word} {r : OpcodeRow} (h : matchingRow w = some r) :
    r ∈ opcodeMap ∧ w &&& r.mask = r.pattern :=
  ⟨List.mem_of_find?_eq_some h, by simpa using List.find?_some h⟩

/-- After the first row a word matches only the row of SYS. -/
theorem eq_first_row_or_sys {w : Word} {r q : OpcodeRow} (hr : matchingRow w = some r) (hq : q ∈ opcodeMap)
    (hwq : w &&& q.mask = q.pattern) : q = r ∨ q.mnemonic = "SYS nnn" := by
  obtain ⟨-, hwr⟩ := matchingRow_eq_some hr
  obtain ⟨-, before, after, hmap, hbefore⟩ := List.find?_eq_some_iff_append.mp hr
  have hdisjoint := opcodeMap_disjoint
  rw [hmap, List.pairwise_append, List.pairwise_cons] at hdisjoint
  obtain ⟨-, ⟨hafter, -⟩, -⟩ := hdisjoint
  rw [hmap, List.mem_append, List.mem_cons] at hq
  rcases hq with hq | rfl | hq
  · exact absurd hwq (by simpa using hbefore q hq)
  · exact .inl rfl
  · exact .inr (hafter q hq (patterns_agree hwr hwq))

/-- The row of a decoded instruction is the first its word matches; for SYS because CLS and RET are none of R63's list. -/
theorem mnemonic_of_first_row {w : Word} {i : Instr} {r : OpcodeRow} (hi : decode w = .ok i)
    (hr : matchingRow w = some r) : r.mnemonic = mnemonicOf i := by
  obtain ⟨hmem, hwr⟩ := matchingRow_eq_some hr
  obtain ⟨rfl, hwf⟩ := encodeInvertsDecode w i hi
  obtain ⟨q, hq, hqi, hwq⟩ := row_of_instruction i hwf
  obtain rfl | hqsys := eq_first_row_or_sys hr hq hwq
  · exact hqi
  · obtain ⟨nnn, rfl⟩ := eq_sys_of_mnemonic (hqi.symm.trans hqsys)
    by_contra hrsys
    have hlisted := undecodableWord_of_decode_sys hi
    rw [not_undecodableWord_of_row hmem hwr hrsys] at hlisted
    cases hlisted

/-- A decoded word matches some row, and the first one is its instruction's. -/
theorem matchingRow_of_decode {w : Word} {i : Instr} (hi : decode w = .ok i) :
    (matchingRow w).map OpcodeRow.mnemonic = some (mnemonicOf i) := by
  obtain ⟨hw, hwf⟩ := encodeInvertsDecode w i hi
  obtain ⟨q, hq, -, hwq⟩ := row_of_instruction i hwf
  have hsome : (matchingRow w).isSome := List.find?_isSome.mpr ⟨q, hq, by simpa [hw] using hwq⟩
  obtain ⟨r, hr⟩ := Option.isSome_iff_exists.mp hsome
  rw [hr, Option.map_some, mnemonic_of_first_row hi hr]

theorem matchingRow_of_error {w : Word} {e : DecodeRefusal} (he : decode w = .error e) : matchingRow w = none := by
  cases hr : matchingRow w with
  | none => rfl
  | some r =>
    obtain ⟨hmem, hw⟩ := matchingRow_eq_some hr
    obtain ⟨i, hi⟩ := decodes_of_row hmem hw
    cases he.symm.trans hi

/-- Settles O3: the masks keep every field the dispatch examines, and only SYS overlaps other rows. -/
theorem decodeFollowsOpcodeMap : Obligations.DecodeFollowsOpcodeMap := fun _ =>
  ⟨fun _ => matchingRow_of_decode, fun _ => matchingRow_of_error, fun _ hr _ hq => rows_eq_or_sys hr hq⟩

/-! ### Sample words (R65) -/

/-- Settles O5: the eleven words are the encodings of their instructions. -/
theorem sampleWordsDecode : Obligations.SampleWordsDecode :=
  ⟨decode_encode (.cls 0x0) rfl, decode_encode (.ret 0x0) rfl, decode_encode (.sys 0x123) rfl,
    decode_encode (.jp 0x234) rfl, decode_encode (.seImm 0x3 0x12) rfl, decode_encode (.subnReg 0x1 0x2) rfl,
    decode_encode (.shl 0x1 0x2) rfl, decode_encode (.drw 0x0 0x1 0x5) rfl, decode_encode (.skp 0x2) rfl,
    decode_encode (.dump 0x2) rfl, decode_encode (.load 0x3) rfl⟩

/-! ### A step on an undecodable word (R63) -/

/-- An instruction without an ignored nibble is accepted under every policy. -/
theorem decodeUnder_of_ignoredNibble_zero (p : IgnoredNibblePolicy) {w : Word} {i : Instr} (h : decode w = .ok i)
    (hu : ignoredNibble i = 0x0#4) : decodeUnder p w = .ok i := by
  cases p <;> simp [decodeUnder, h, hu]

/-- Nothing is done for a word of R63's list: it is rejected, or it is SYS. -/
theorem dispatchWord_of_undecodableWord {w : Word} (s : State) (h : undecodableWord w = true) :
    dispatchWord w s = .next s := by
  rcases decode_of_undecodableWord h with he | ⟨nnn, hsys⟩
  · have hrejected : decodeUnder s.cfg.policy w = .error .undecodable := by simp only [decodeUnder, he]
    simp only [dispatchWord, hrejected]
  · exact dispatchWord_of_accepted (decodeUnder_of_ignoredNibble_zero _ hsys rfl)

theorem stepWith_of_undecodableWord (keys : BitVec 16) (rnd : Byte) (s : State) (hs : CanFetch s)
    (h : undecodableWord (wordAtPc s) = true) :
    stepWith keys rnd s = .next (tickTimers (fetchedState keys rnd s)) := by
  have hrunning : isFaulted (fetchedState keys rnd s) = false := isFaulted_of_loaded _ hs.1
  rw [stepWith_of_canFetch keys rnd s hs, dispatchWord_of_undecodableWord _ h]
  simp only [finishStep, endStep, hrunning, Bool.false_eq_true, if_false]

/-- Settles O4: a word of R63's list is rejected or SYS, every other word decodes to an instruction that is not SYS. -/
theorem undecodableWordsAreNoOps : Obligations.UndecodableWordsAreNoOps :=
  ⟨stepWith_of_undecodableWord, fun _ => decodes_of_not_undecodableWord⟩

end Sys2Proof.Machine
end

section
/-! ## What every step without a fault does (30_encoding.md R50 to R56) -/

namespace Sys2Proof.Machine

/-! ### The instruction a step executes -/

/-- Settles O35: the meaning of SYS is the no-op. -/
theorem sysChangesNothing : Obligations.SysChangesNothing := fun _ _ => rfl

/-- Settles O7: taking the payload leaves the word at PC and the policy as they are. -/
theorem stepRunsDecodedInstruction : Obligations.StepRunsDecodedInstruction := by
  intro s i hs hi
  have hfields : (takeInput s).phase = s.phase ∧ (takeInput s).pc = s.pc ∧ (takeInput s).cfg = s.cfg ∧
      wordAtPc (takeInput s) = wordAtPc s := by
    unfold takeInput
    split <;> exact ⟨rfl, rfl, rfl, rfl⟩
  obtain ⟨hphase, hpc, hcfg, hword⟩ := hfields
  have hfetch : CanFetch (takeInput s) := by
    rw [CanFetch, hphase, hpc]
    exact hs
  unfold step
  rw [stepWith_of_canFetch _ _ _ hfetch, hword, dispatchWord_of_accepted (hcfg ▸ hi)]
  rfl

/-- The instruction a step executes on a word: an undecodable word is the no-op SYS is (R63, R64). -/
def executed (w : Word) : Instr :=
  match decode w with
  | .ok i => i
  | .error _ => .sys 0x000#12

theorem executed_of_decode {w : Word} {i : Instr} (h : decode w = .ok i) : executed w = i := by
  simp only [executed, h]

theorem executed_of_error {w : Word} {r : DecodeRefusal} (h : decode w = .error r) : executed w = .sys 0x000#12 := by
  simp only [executed, h]

/-- But for SYS, the instruction executed is the one decoded. -/
theorem executed_eq_iff {w : Word} {i : Instr} (hi : ∀ nnn, i ≠ .sys nnn) : executed w = i ↔ decode w = .ok i := by
  cases hd : decode w with
  | ok j => rw [executed_of_decode hd, Except.ok.injEq]
  | error r =>
    rw [executed_of_error hd]
    exact iff_of_false (hi _).symm nofun

theorem decode_of_executed {w : Word} {i : Instr} (h : executed w = i) (hi : ∀ nnn, i ≠ .sys nnn) : decode w = .ok i :=
  (executed_eq_iff hi).mp h

/-- A step faults on the fetch, or executes and then ends (R50). -/
theorem stepWith_executes {keys : BitVec 16} {rnd : Byte} {s t : State} (h : stepWith keys rnd s = .next t) :
    (0xFFE < s.pc.toNat ∧ t = enterFault .fetchRange (beginStep keys rnd s)) ∨
    (CanFetch s ∧ ∃ u, exec (executed (wordAtPc s)) (fetchedState keys rnd s) = .next u ∧ t = endStep u) := by
  obtain ⟨-, hfault | ⟨hs, hd, rfl⟩ | ⟨hs, i, u, hd, hx, rfl⟩⟩ := stepWith_cases keys rnd s t h
  · exact .inl hfault
  · exact .inr ⟨hs, _, by rw [executed_of_error hd]; rfl, rfl⟩
  · exact .inr ⟨hs, u, by rw [executed_of_decode hd]; exact hx, rfl⟩

theorem isFaulted_endStep (u : State) : isFaulted (endStep u) = isFaulted u := by
  unfold endStep
  split <;> rfl

theorem endStep_of_noFault {u : State} (h : NoFault u) : endStep u = tickTimers u := by
  simp only [endStep, h, Bool.false_eq_true, if_false]

/-- A step without a fault is an execution without a fault, and then the tick of the timers (R56). -/
theorem stepWith_noFault {keys : BitVec 16} {rnd : Byte} {s t : State} (h : stepWith keys rnd s = .next t)
    (ht : NoFault t) :
    s.phase = .loaded ∧ ∃ u, exec (executed (wordAtPc s)) (fetchedState keys rnd s) = .next u ∧ NoFault u ∧
      t = tickTimers u := by
  rcases stepWith_executes h with ⟨-, rfl⟩ | ⟨hs, u, hx, rfl⟩
  · cases ht
  · have hu : NoFault u := (isFaulted_endStep u).symm.trans ht
    exact ⟨hs.1, u, hx, hu, endStep_of_noFault hu⟩

/-! ### The latch and the display-changed flag (R51, R52) -/

/-- Settles O10: no instruction writes the latch. -/
theorem stepLatchesKeys : Obligations.StepLatchesKeys := by
  intro keys rnd s t h ht k
  obtain ⟨hloaded, u, hx, hu, rfl⟩ := stepWith_noFault h ht
  have hrunning : NoFault (fetchedState keys rnd s) := isFaulted_of_loaded _ hloaded
  obtain ⟨-, -, -, hkept⟩ := instructionsKeepLifecycleAndInputs _ _ u hrunning hx
  obtain ⟨-, hkeys⟩ := hkept hu
  calc keyDown (tickTimers u) k = (latchOfPort keys)[k.val] := congrArg (·[k.val]) hkeys
    _ = keys.getLsbD k.val := latchOfPort_getElem keys k

/-- A DRW that completes sets DCHG, and every other instruction keeps it (R70). -/
theorem dchg_of_exec {i : Instr} {s t : State} (h : exec i s = .next t) (ht : NoFault t) :
    t.dchg = true ↔ s.dchg = true ∨ ∃ x y n, i = .drw x y n := by
  by_cases hdrw : ∃ x y n, i = .drw x y n
  · refine iff_of_true ?_ (.inr hdrw)
    obtain ⟨x, y, n, rfl⟩ := hdrw
    rcases execDrw_cases x y n s with ⟨d, e, -⟩ | ⟨-, e⟩
    · exact Host.Outcome.next.inj (e.symm.trans h) ▸ rfl
    · obtain rfl := Host.Outcome.next.inj (e.symm.trans h)
      cases ht
  · have hkept : t.dchg = s.dchg := by
      cases exec_completes h ht with
      | draw x y n hi d collision => exact absurd ⟨x, y, n, hi⟩ hdrw
      | _ => rfl
    rw [hkept, or_iff_left hdrw]

/-- Settles O11: the step clears DCHG before it executes, and of the instructions only DRW sets it. -/
theorem displayChangedExactlyAfterDraw : Obligations.DisplayChangedExactlyAfterDraw := by
  intro keys rnd s t h ht
  obtain ⟨-, u, hx, hu, rfl⟩ := stepWith_noFault h ht
  have hcleared : ¬ (fetchedState keys rnd s).dchg = true := nofun
  rw [tickTimers_dchg, dchg_of_exec hx hu, or_iff_right hcleared]
  exact exists_congr fun x => exists_congr fun y => exists_congr fun n => executed_eq_iff nofun

/-! ### The timers and the random byte: only four instructions read or write them (R95, R102, R104, R105) -/

/-- A state with its timers and its random byte mapped. -/
def mapTimersRnd (fdt fst frnd : Byte → Byte) (s : State) : State :=
  { s with dt := fdt s.dt, st := fst s.st, rnd := frnd s.rnd }

/-- The four instructions that read or write a timer or the random byte. -/
def usesTimersOrRnd (i : Instr) : Bool :=
  match i with
  | .rnd _ _ | .ldVxDt _ | .ldDtVx _ | .ldStVx _ => true
  | _ => false

/-- Executed from the mapped state an instruction ends in its result, mapped, or takes the same fault. -/
def ExecCommutes (f : State → State) (i : Instr) (s : State) : Prop :=
  ∃ r : Except Fault State, exec i s = settle s r ∧ exec i (f s) = settle (f s) (r.map f)

/-! #### Computations that commute with a map of the state -/

theorem execCommutes_of_settle {f : State → State} {i : Instr} {s : State} {r r' : Except Fault State}
    (h : exec i s = settle s r) (h' : exec i (f s) = settle (f s) r') (hr : r' = r.map f) : ExecCommutes f i s :=
  ⟨r, h, hr ▸ h'⟩

/-- A value computed alike from both states may be used in what follows. -/
theorem bind_value_commutes {f : State → State} {α : Type} {x : Except Fault α} {k k' : α → Except Fault State}
    (hk : ∀ a, k' a = (k a).map f) : (x >>= k') = (x >>= k).map f := by
  cases x with
  | error c => rfl
  | ok a => exact hk a

/-- Two computations in a row that commute with a map of the state commute with it together. -/
theorem bind_state_commutes {f : State → State} {x x' : Except Fault State} {k k' : State → Except Fault State}
    (hx : x' = x.map f) (hk : ∀ t, k' (f t) = (k t).map f) : (x' >>= k') = (x >>= k).map f := by
  subst hx
  cases x with
  | error c => rfl
  | ok t => exact hk t

theorem foldlM_commutes {f : State → State} {k k' : State → Nat → Except Fault State} (l : List Nat) (s : State)
    (hk : ∀ t n, k' (f t) n = (k t n).map f) : l.foldlM k' (f s) = (l.foldlM k s).map f := by
  induction l generalizing s with
  | nil => rfl
  | cons n l ih =>
    rw [List.foldlM_cons, List.foldlM_cons]
    exact bind_state_commutes (hk s n) ih

section
variable (fdt fst frnd : Byte → Byte) (s : State)

theorem pushPc_mapTimersRnd :
    pushPc (mapTimersRnd fdt fst frnd s) = (pushPc s).map (mapTimersRnd fdt fst frnd) := by
  rcases pushPc_cases s with ⟨h, e⟩ | ⟨h, e⟩
  · rw [e]
    exact dif_pos h
  · rw [e]
    exact dif_neg (Nat.not_lt.mpr h.ge)

theorem popPc_mapTimersRnd :
    popPc (mapTimersRnd fdt fst frnd s) = (popPc s).map (mapTimersRnd fdt fst frnd) := by
  rcases popPc_cases s with ⟨h, e⟩ | ⟨h, e⟩
  · rw [e]
    exact dif_pos h
  · rw [e]
    exact dif_neg (Nat.not_lt.mpr h.le)

theorem memWrite_mapTimersRnd (a : Nat) (b : Byte) :
    memWrite (mapTimersRnd fdt fst frnd s) a b = (memWrite s a b).map (mapTimersRnd fdt fst frnd) := by
  rcases memWrite_cases s a b with ⟨h, e⟩ | ⟨h, e⟩
  · rw [e]
    exact if_pos h
  · rw [e]
    exact if_neg (Nat.not_le.mpr h)

/-- The 31 other instructions neither read nor write the timers and the random byte. -/
theorem exec_commutes_mapTimersRnd {i : Instr} (hi : usesTimersOrRnd i = false) :
    ExecCommutes (mapTimersRnd fdt fst frnd) i s := by
  cases i with
  | rnd | ldVxDt | ldDtVx | ldStVx => cases hi
  | ret u => exact execCommutes_of_settle rfl rfl (popPc_mapTimersRnd ..)
  | call nnn => exact execCommutes_of_settle rfl rfl (bind_state_commutes (pushPc_mapTimersRnd ..) fun _ => rfl)
  | skp x | sknp x => exact execCommutes_of_settle rfl rfl (bind_value_commutes (x := keyIndex s x) fun _ => rfl)
  | drw x y n =>
    exact execCommutes_of_settle rfl rfl
      (bind_value_commutes (x := drawRows s (getV s x) (getV s y) n.toNat) fun _ => rfl)
  | ldB x =>
    exact execCommutes_of_settle rfl rfl (bind_state_commutes (memWrite_mapTimersRnd ..) fun _ =>
      bind_state_commutes (memWrite_mapTimersRnd ..) fun _ => memWrite_mapTimersRnd ..)
  | dump x =>
    exact execCommutes_of_settle rfl rfl (foldlM_commutes _ s fun _ _ => memWrite_mapTimersRnd ..)
  | load x =>
    exact execCommutes_of_settle rfl rfl (foldlM_commutes _ s fun _ n =>
      bind_value_commutes (x := memRead s (indexAddr s n)) fun _ => rfl)
  | ldVxK x =>
    have hkey : highestKey (mapTimersRnd fdt fst frnd s) = highestKey s := rfl
    refine ⟨.ok _, rfl, ?_⟩
    simp only [exec, execLdVxK, hkey]
    cases highestKey s <;> rfl
  | _ => exact ⟨.ok _, rfl, rfl⟩

end

/-! ### The decrement of the timers (R56, R119) -/

/-- An execution without a fault that commutes with setting the timers to what they are leaves them so. -/
theorem timers_of_exec {i : Instr} {s t : State} (hi : usesTimersOrRnd i = false) (h : exec i s = .next t)
    (ht : NoFault t) : t.dt = s.dt ∧ t.st = s.st := by
  obtain ⟨r, hr, hmap⟩ := exec_commutes_mapTimersRnd (fun _ => s.dt) (fun _ => s.st) id s hi
  cases r with
  | error c =>
    obtain rfl := Host.Outcome.next.inj (hr.symm.trans h)
    cases ht
  | ok u =>
    obtain rfl : u = t := Host.Outcome.next.inj (hr.symm.trans h)
    have hset : u = mapTimersRnd (fun _ => s.dt) (fun _ => s.st) id u :=
      Host.Outcome.next.inj (hr.symm.trans hmap)
    exact ⟨(congrArg State.dt hset :), (congrArg State.st hset :)⟩

/-- R24: DT is written by LD DT, Vx alone. -/
theorem dt_of_exec {i : Instr} {s t : State} (hi : ∀ x, i ≠ .ldDtVx x) (h : exec i s = .next t) (ht : NoFault t) :
    t.dt = s.dt := by
  cases i with
  | ldDtVx x => exact absurd rfl (hi x)
  | rnd | ldVxDt | ldStVx => cases h; rfl
  | _ => exact (timers_of_exec rfl h ht).1

/-- R24: ST is written by LD ST, Vx alone. -/
theorem st_of_exec {i : Instr} {s t : State} (hi : ∀ x, i ≠ .ldStVx x) (h : exec i s = .next t) (ht : NoFault t) :
    t.st = s.st := by
  cases i with
  | ldStVx x => exact absurd rfl (hi x)
  | rnd | ldVxDt | ldDtVx => cases h; rfl
  | _ => exact (timers_of_exec rfl h ht).2

/-- Settles O12: the tick decrements what the execution leaves in each timer. -/
theorem timersTickEveryStep : Obligations.TimersTickEveryStep := by
  intro keys rnd s t h ht
  obtain ⟨-, u, hx, hu, rfl⟩ := stepWith_noFault h ht
  rw [tickTimers_dt, tickTimers_st, decrement_toNat, decrement_toNat]
  refine ⟨fun hne => ?_, fun hne => ?_, fun x hd => ?_, fun x hd => ?_⟩
  · rw [dt_of_exec (fun x hi => hne x (decode_of_executed hi nofun)) hx hu]
    rfl
  · rw [st_of_exec (fun x hi => hne x (decode_of_executed hi nofun)) hx hu]
    rfl
  · rw [executed_of_decode hd] at hx
    obtain rfl := Host.Outcome.next.inj hx
    rfl
  · rw [executed_of_decode hd] at hx
    obtain rfl := Host.Outcome.next.inj hx
    rfl

/-! ### The random byte (R55, R120) -/

/-- A state with another random byte. -/
def withRnd (r : Byte) (s : State) : State := mapTimersRnd id id (fun _ => r) s

/-- Only RND reads the random byte, and no instruction writes it. -/
theorem exec_commutes_withRnd (r : Byte) {i : Instr} (s : State) (hi : ∀ x kk, i ≠ .rnd x kk) :
    ExecCommutes (withRnd r) i s := by
  cases i with
  | rnd x kk => exact absurd rfl (hi x kk)
  | ldVxDt | ldDtVx | ldStVx => exact ⟨.ok _, rfl, rfl⟩
  | _ => exact exec_commutes_mapTimersRnd id id (fun _ => r) s rfl

theorem endStep_withRnd (r : Byte) (u : State) : endStep (withRnd r u) = withRnd r (endStep u) := by
  have hfault : isFaulted (withRnd r u) = isFaulted u := rfl
  unfold endStep
  rw [hfault]
  split <;> rfl

/-- Settles O13: the two steps fetch alike, and what they execute commutes with the change of the random byte. -/
theorem randomByteReachesOnlyRnd : Obligations.RandomByteReachesOnlyRnd := by
  intro keys r1 r2 s t1 t2 h1 h2 hne
  rcases stepWith_executes h1 with ⟨hout, rfl⟩ | ⟨hin, u1, hx1, rfl⟩ <;>
    rcases stepWith_executes h2 with ⟨hout2, rfl⟩ | ⟨hin2, u2, hx2, rfl⟩
  · exact ⟨rfl, nofun⟩
  · exact absurd hin2.2 (Nat.not_le.mpr hout)
  · exact absurd hin.2 (Nat.not_le.mpr hout2)
  · obtain ⟨r, e1, e2⟩ := exec_commutes_withRnd r2 (fetchedState keys r1 s)
      fun x kk hi => hne x kk (decode_of_executed hi nofun)
    cases r with
    | error c =>
      obtain rfl := Host.Outcome.next.inj (e1.symm.trans hx1)
      obtain rfl := Host.Outcome.next.inj (e2.symm.trans hx2)
      exact ⟨rfl, nofun⟩
    | ok u =>
      obtain rfl : u = u1 := Host.Outcome.next.inj (e1.symm.trans hx1)
      obtain rfl : withRnd r2 u = u2 := Host.Outcome.next.inj (e2.symm.trans hx2)
      rw [endStep_withRnd]
      exact ⟨rfl, fun _ => rfl⟩

end Sys2Proof.Machine
end

section
/-! ## The display: CLS and DRW (R69, R70) -/

namespace Sys2Proof.Machine

/-- Settles O32: the blank display has no lit cell, and CLS writes no other field. -/
theorem clsBlanksDisplay : Obligations.ClsBlanksDisplay := fun _ _ =>
  ⟨_, rfl, pixel_blankDisplay, rfl, fun _ => rfl⟩

/-- VF after a draw is the collision flag: setting DCHG leaves the registers alone. -/
theorem getV_drawn_vf (s : State) (d : Display) (collision : Bool) :
    getV { setV { s with disp := d } vf (flagByte collision) with dchg := true } vf = flagByte collision :=
  getV_setV_same { s with disp := d } vf (flagByte collision)

/-- Every other register is as before the draw. -/
theorem otherRegs_drawn (s : State) (d : Display) (collision : Bool) :
    OtherRegs s { setV { s with disp := d } vf (flagByte collision) with dchg := true } vf :=
  fun q hq => getV_setV_other { s with disp := d } vf q (flagByte collision) hq.symm

/-- Settles O33: the rows drawn are the closed form of the sprite, and the flag they leave is its collision. -/
theorem drwXorsSprite : Obligations.DrwXorsSprite := by
  intro x y n s
  rcases execDrw_cases x y n s with ⟨d, e, hin, hpixel, hcollision⟩ | ⟨hout, e⟩
  · refine ⟨fun _ => ⟨_, e, hpixel, fun hc => ?_, fun hc => ?_, otherRegs_drawn s d.1 d.2, rfl, rfl, fun _ => rfl⟩,
      fun hout => absurd hin hout⟩
    · rw [getV_drawn_vf, hcollision.mpr hc]
      rfl
    · rw [getV_drawn_vf, Bool.eq_false_iff.mpr fun h => hc (hcollision.mp h)]
      rfl
  · exact ⟨fun hin => absurd hin hout, fun _ => ⟨_, e, enterFault_phase s .memoryRange⟩⟩

end Sys2Proof.Machine
end

section
/-! ## Control transfer: RET, CALL, jumps and skips (R71 to R81) -/

namespace Sys2Proof.Machine

/-! ### RET and CALL -/

/-- RET with `k + 1` entries on the stack pops the entry `k`. -/
theorem execRet_of_sp_eq_succ (u : Nibble) {s : State} {k : Fin 16} (hk : s.sp.val = k.val + 1) :
    exec (.ret u) s = .next { s with sp := k.castSucc, pc := s.stack[k.val] } := by
  have hpred : s.sp.val - 1 = k.val := by omega
  rcases execRet_cases u s with ⟨_, e⟩ | ⟨hempty, _⟩
  · simp only [hpred] at e
    exact e
  · omega

theorem execRet_of_sp_eq_zero (u : Nibble) {s : State} (hempty : s.sp.val = 0) :
    exec (.ret u) s = .next (enterFault .stackUnderflow s) := by
  rcases execRet_cases u s with ⟨hpos, _⟩ | ⟨_, e⟩
  · omega
  · exact e

/-- CALL with a free entry pushes the advanced PC there and jumps. -/
theorem execCall_of_sp_lt (nnn : Addr) {s : State} (h : s.sp.val < 16) :
    exec (.call nnn) s =
      .next { s with stack := s.stack.set s.sp.val s.pc h, sp := ⟨s.sp.val + 1, by omega⟩, pc := addrWord nnn } := by
  rcases execCall_cases nnn s with ⟨_, e⟩ | ⟨hfull, _⟩
  · exact e
  · omega

theorem execCall_of_sp_eq_16 (nnn : Addr) {s : State} (hfull : s.sp.val = 16) :
    exec (.call nnn) s = .next (enterFault .stackOverflow s) := by
  rcases execCall_cases nnn s with ⟨h, _⟩ | ⟨_, e⟩
  · omega
  · exact e

/-- The zero extension of an address keeps its value (R8). -/
@[simp] theorem addrWord_toNat (nnn : Addr) : (addrWord nnn).toNat = nnn.toNat :=
  BitVec.toNat_setWidth_of_le (by decide)

/-- Settles O38: the entry CALL writes is the one RET pops, and it lies above the entries that were in use. -/
theorem retReturnsAfterCall : Obligations.RetReturnsAfterCall := by
  intro nnn u s h
  refine ⟨_, _, execCall_of_sp_lt nnn h, execRet_of_sp_eq_succ u (k := ⟨s.sp.val, h⟩) rfl, ?_, rfl, fun k hk => ?_⟩
  · exact Vector.getElem_set_self h
  · exact Vector.getElem_set_ne h k.isLt hk.ne'

/-- Settles O36: a stack that is not empty is popped, an empty one takes the fault. -/
theorem retPopsReturnAddress : Obligations.RetPopsReturnAddress := fun u s =>
  ⟨fun _ hk => ⟨_, execRet_of_sp_eq_succ u hk, rfl, rfl, rfl, fun _ => rfl⟩,
    fun hempty => ⟨_, execRet_of_sp_eq_zero u hempty, enterFault_phase s .stackUnderflow⟩⟩

/-- Settles O37: of the stack entries only the one at SP is written, and a full stack takes the fault. -/
theorem callPushesAdvancedPc : Obligations.CallPushesAdvancedPc := by
  intro nnn s
  refine ⟨fun h => ⟨_, execCall_of_sp_lt nnn h, fun k => ?_, rfl, addrWord_toNat nnn, rfl, fun _ => rfl⟩,
    fun hfull => ⟨_, execCall_of_sp_eq_16 nnn hfull, enterFault_phase s .stackOverflow⟩⟩
  simp only [Vector.getElem_set, eq_comm]

/-! ### Jumps -/

theorem onlyPc_jumpTo (s : State) (target : Word) : OnlyPc s (jumpTo s target) := ⟨rfl, fun _ => rfl⟩

/-- Settles O39: the jump is to the address, zero-extended. -/
theorem jpSetsPc : Obligations.JpSetsPc := fun nnn s =>
  ⟨_, rfl, addrWord_toNat nnn, onlyPc_jumpTo s _⟩

/-- The zero extension of a register keeps its value (R8). -/
@[simp] theorem regWord_toNat (s : State) (r : Nibble) : (regWord s r).toNat = (getV s r).toNat :=
  BitVec.toNat_setWidth_of_le (by decide)

/-- A register and an address are too small for their sum to wrap (R79). -/
theorem regWord_add_addrWord_toNat (s : State) (r : Nibble) (nnn : Addr) :
    (regWord s r + addrWord nnn).toNat = (getV s r).toNat + nnn.toNat := by
  have hreg := (getV s r).isLt
  have haddr := nnn.isLt
  rw [BitVec.toNat_add, regWord_toNat, addrWord_toNat]
  omega

/-- Settles O40: the jump is to the sum, which does not wrap. -/
theorem jpV0AddsV0 : Obligations.JpV0AddsV0 := fun nnn s =>
  ⟨_, rfl, regWord_add_addrWord_toNat s 0x0#4 nnn, onlyPc_jumpTo s _⟩

/-! ### Skips -/

theorem onlyPc_skipIf (c : Bool) (s : State) : OnlyPc s (skipIf c s) := ⟨rfl, fun _ => rfl⟩

/-- An instruction that skips by a condition adds 2 to PC where it holds, keeps PC where it does not, and writes
nothing else (R71). -/
theorem skips_of_exec {i : Instr} {s : State} {c : Bool} {skip stay : Prop} (h : exec i s = .next (skipIf c s))
    (hskip : skip → c = true) (hstay : stay → c = false) :
    ∃ t, exec i s = .next t ∧ (skip → t.pc = s.pc + 2) ∧ (stay → t.pc = s.pc) ∧ OnlyPc s t :=
  ⟨_, h, fun hp => by simp [hskip hp], fun hp => by simp [hstay hp], onlyPc_skipIf c s⟩

/-- Settles O41: the conditions are the equality of register and immediate, and its negation. -/
theorem immediateSkips : Obligations.ImmediateSkips := fun _ _ _ =>
  ⟨skips_of_exec rfl beq_iff_eq.mpr beq_eq_false_iff_ne.mpr,
    skips_of_exec rfl bne_iff_ne.mpr bne_eq_false_iff_eq.mpr⟩

/-- Settles O42: the conditions are the equality of the two registers, and its negation. -/
theorem registerSkips : Obligations.RegisterSkips := fun _ _ _ _ =>
  ⟨skips_of_exec rfl beq_iff_eq.mpr beq_eq_false_iff_ne.mpr,
    skips_of_exec rfl bne_iff_ne.mpr bne_eq_false_iff_eq.mpr⟩

/-- Which of its two cases a skip by key takes is told by the index: below 16 it is the key's, from 16 on the fault's. -/
theorem exec_of_key_cases {i : Instr} {s : State} {x : Nibble} {c : Fin 16 → Bool}
    (h : (∃ k : Fin 16, (getV s x).toNat = k.val ∧ exec i s = .next (skipIf (c k) s)) ∨
      (16 ≤ (getV s x).toNat ∧ exec i s = .next (enterFault .keyIndexRange s))) :
    (∀ k : Fin 16, (getV s x).toNat = k.val → exec i s = .next (skipIf (c k) s)) ∧
      (16 ≤ (getV s x).toNat → exec i s = .next (enterFault .keyIndexRange s)) := by
  rcases h with ⟨j, hj, e⟩ | ⟨hout, e⟩
  · refine ⟨fun k hk => ?_, fun hout => by omega⟩
    obtain rfl : j = k := Fin.ext (hj.symm.trans hk)
    exact e
  · exact ⟨fun k hk => by omega, fun _ => e⟩

/-- Settles O43: the conditions are the level of the key that Vx indexes, and its negation. -/
theorem keySkips : Obligations.KeySkips := by
  intro x s
  obtain ⟨hskp, hskpFault⟩ := exec_of_key_cases (execSkp_cases x s)
  obtain ⟨hsknp, hsknpFault⟩ := exec_of_key_cases (execSknp_cases x s)
  refine ⟨fun k hk => ⟨?_, ?_⟩, fun hout => ⟨⟨_, hskpFault hout, ?_⟩, ⟨_, hsknpFault hout, ?_⟩⟩⟩
  · exact skips_of_exec (hskp k hk) id id
  · exact skips_of_exec (hsknp k hk) (congrArg not) (congrArg not)
  · exact enterFault_phase s .keyIndexRange
  · exact enterFault_phase s .keyIndexRange

end Sys2Proof.Machine
end

section
/-! ## Register loads, arithmetic, logic and random (R82 to R95) -/

namespace Sys2Proof.Machine

/-! ### Instructions that write one register and no flag -/

theorem onlyV_setV (s : State) (x : Nibble) (b : Byte) : OnlyV s (setV s x b) := ⟨rfl, fun _ => rfl⟩

theorem otherRegs_setV (s : State) (x : Nibble) (b : Byte) : OtherRegs s (setV s x b) x :=
  fun q hq => getV_setV_other s x q b hq.symm

/-- An instruction that writes a byte to Vx leaves there what holds of the byte, and writes nothing else. -/
theorem writesRegister_of_exec {i : Instr} {s : State} {x : Nibble} {b : Byte} (P : Byte → Prop)
    (h : exec i s = .next (setV s x b)) (hb : P b) :
    ∃ t, exec i s = .next t ∧ P (getV t x) ∧ OtherRegs s t x ∧ OnlyV s t :=
  ⟨_, h, (getV_setV_same s x b).symm ▸ hb, otherRegs_setV s x b, onlyV_setV s x b⟩

/-- Settles O44: the byte written is the immediate, or the value of Vy. -/
theorem registerLoads : Obligations.RegisterLoads := fun _ y kk s =>
  ⟨writesRegister_of_exec (· = kk) rfl rfl, writesRegister_of_exec (· = getV s y) rfl rfl⟩

/-- Settles O45: the sum of two bytes is the sum of their values modulo 256. -/
theorem addImmediateWraps : Obligations.AddImmediateWraps := fun x kk s =>
  writesRegister_of_exec (fun b => b.toNat = ((getV s x).toNat + kk.toNat) % 256) rfl (BitVec.toNat_add _ _)

/-- Settles O46: the operations on bytes work bit by bit. -/
theorem logicOperations : Obligations.LogicOperations := fun x y s =>
  ⟨writesRegister_of_exec (fun b => ∀ k, b.getLsbD k = ((getV s x).getLsbD k || (getV s y).getLsbD k)) rfl
      fun _ => BitVec.getLsbD_or,
    writesRegister_of_exec (fun b => ∀ k, b.getLsbD k = ((getV s x).getLsbD k && (getV s y).getLsbD k)) rfl
      fun _ => BitVec.getLsbD_and,
    writesRegister_of_exec (fun b => ∀ k, b.getLsbD k = ((getV s x).getLsbD k ^^ (getV s y).getLsbD k)) rfl
      fun _ => BitVec.getLsbD_xor⟩

/-- Settles O51: the byte written is the AND of the step's random byte and kk. -/
theorem rndMasksRandomByte : Obligations.RndMasksRandomByte := fun _ kk s =>
  writesRegister_of_exec (fun b => ∀ k, b.getLsbD k = (s.rnd.getLsbD k && kk.getLsbD k)) rfl
    fun _ => BitVec.getLsbD_and

/-! ### Instructions that write a result and then a flag -/

theorem onlyV_setResultAndFlag (s : State) (x : Nibble) (b : Byte) (c : Bool) :
    OnlyV s (setResultAndFlag s x b c) := ⟨rfl, fun _ => rfl⟩

/-- The flag is written last, so VF holds it even as the destination (R12). -/
@[simp] theorem getV_setResultAndFlag_vf (s : State) (x : Nibble) (b : Byte) (c : Bool) :
    getV (setResultAndFlag s x b c) vf = flagByte c :=
  getV_setV_same _ vf _

theorem getV_setResultAndFlag_result (s : State) {x : Nibble} (b : Byte) (c : Bool) (hx : x ≠ vf) :
    getV (setResultAndFlag s x b c) x = b := by
  rw [getV_setResultAndFlag, if_neg hx.symm, if_pos rfl]

theorem otherRegsButVf_setResultAndFlag (s : State) (x : Nibble) (b : Byte) (c : Bool) :
    OtherRegsButVf s (setResultAndFlag s x b c) x := by
  intro q hqx hqvf
  rw [getV_setResultAndFlag, if_neg hqvf.symm, if_neg hqx.symm]

/-- An instruction that writes a result and a flag leaves what holds of the result in a Vx other than VF and what holds
of the flag in VF, and writes nothing else. -/
theorem writesResultAndFlag_of_exec {i : Instr} {s : State} {x : Nibble} {b : Byte} {c : Bool} (P Q : Byte → Prop)
    (h : exec i s = .next (setResultAndFlag s x b c)) (hb : P b) (hc : Q (flagByte c)) :
    ∃ t, exec i s = .next t ∧ (x ≠ vf → P (getV t x)) ∧ Q (getV t vf) ∧ OtherRegsButVf s t x ∧ OnlyV s t :=
  ⟨_, h, fun hx => (getV_setResultAndFlag_result s b c hx).symm ▸ hb, (getV_setResultAndFlag_vf s x b c).symm ▸ hc,
    otherRegsButVf_setResultAndFlag s x b c, onlyV_setResultAndFlag s x b c⟩

/-- The same with the two values of the flag told apart: VF is 1 under the one condition and 0 under the other. -/
theorem setsFlag_of_exec {i : Instr} {s : State} {x : Nibble} {b : Byte} {c : Bool} {raised cleared : Prop}
    (P : Byte → Prop) (h : exec i s = .next (setResultAndFlag s x b c)) (hb : P b) (hraised : raised → c = true)
    (hcleared : cleared → c = false) :
    ∃ t, exec i s = .next t ∧ (x ≠ vf → P (getV t x)) ∧ (raised → getV t vf = 0x01#8) ∧
      (cleared → getV t vf = 0x00#8) ∧ OtherRegsButVf s t x ∧ OnlyV s t := by
  obtain ⟨t, e, hx, ⟨hone, hzero⟩, hframe⟩ := writesResultAndFlag_of_exec P
    (fun f => (raised → f = 0x01#8) ∧ (cleared → f = 0x00#8)) h hb
    ⟨fun hp => congrArg flagByte (hraised hp), fun hp => congrArg flagByte (hcleared hp)⟩
  exact ⟨t, e, hx, hone, hzero, hframe⟩

/-- Settles O47: the carry is set when the sum of the values is above 255, and cleared when it is not. -/
theorem addRegistersSetsCarry : Obligations.AddRegistersSetsCarry := fun x y s =>
  setsFlag_of_exec (fun b => b.toNat = ((getV s x).toNat + (getV s y).toNat) % 256) rfl (BitVec.toNat_add _ _)
    decide_eq_true fun h => decide_eq_false (Nat.not_lt.mpr h)

/-- The difference of two bytes is the difference of their values modulo 256 (R82). -/
theorem toNat_byteSub (a b : Byte) : ((a - b).toNat : Int) = (a.toNat - b.toNat : Int) % 256 := by
  have ha := a.isLt
  have hb := b.isLt
  rw [BitVec.toNat_sub]
  omega

/-- An instruction that subtracts `b` from `a` leaves in VF whether `a` was strictly greater (R82). -/
theorem subtracts_of_exec {i : Instr} {s : State} {x : Nibble} (a b : Byte)
    (h : exec i s = .next (setResultAndFlag s x (a - b) (noBorrowFlag a b))) :
    ∃ t, exec i s = .next t ∧ (x ≠ vf → ((getV t x).toNat : Int) = (a.toNat - b.toNat : Int) % 256) ∧
      (b.toNat < a.toNat → getV t vf = 0x01#8) ∧ (a.toNat ≤ b.toNat → getV t vf = 0x00#8) ∧
      OtherRegsButVf s t x ∧ OnlyV s t :=
  setsFlag_of_exec (fun d => (d.toNat : Int) = (a.toNat - b.toNat : Int) % 256) h (toNat_byteSub a b)
    decide_eq_true fun hle => decide_eq_false (Nat.not_lt.mpr hle)

/-- Settles O48: SUB subtracts Vy from Vx. -/
theorem subSetsStrictNoBorrow : Obligations.SubSetsStrictNoBorrow := fun x y s =>
  subtracts_of_exec (getV s x) (getV s y) rfl

/-- Settles O49: SUBN subtracts Vx from Vy. -/
theorem subnSetsStrictNoBorrow : Obligations.SubnSetsStrictNoBorrow := fun x y s =>
  subtracts_of_exec (getV s y) (getV s x) rfl

/-! ### Shifts -/

theorem flagByte_toNat (c : Bool) : (flagByte c).toNat = c.toNat := by
  cases c <;> rfl

/-- The bit SHR shifts out is the remainder of its division by 2. -/
theorem lowBit_toNat (a : Byte) : (lowBit a).toNat = a.toNat % 2 := by
  rw [lowBit, BitVec.getLsbD, Nat.toNat_testBit, Nat.pow_zero, Nat.div_one]

/-- The bit SHL shifts out is the one a value of 128 or more has. -/
theorem highBit_toNat (a : Byte) : (highBit a).toNat = a.toNat / 128 := by
  have := a.isLt
  rw [highBit, BitVec.getLsbD, Nat.toNat_testBit]
  omega

theorem shiftRight_one_toNat (a : Byte) : (a >>> 1).toNat = a.toNat / 2 := by
  rw [BitVec.toNat_ushiftRight, Nat.shiftRight_one]

theorem shiftLeft_one_toNat (a : Byte) : (a <<< 1).toNat = a.toNat * 2 % 256 := by
  rw [BitVec.toNat_shiftLeft, Nat.shiftLeft_eq]

/-- Settles O50: a shift by one bit is the division or the product by 2, and VF holds the bit it shifts out. -/
theorem shiftsMoveOneBitToVf : Obligations.ShiftsMoveOneBitToVf := fun x _ s =>
  ⟨writesResultAndFlag_of_exec (fun b => b.toNat = (getV s x).toNat / 2) (fun f => f.toNat = (getV s x).toNat % 2) rfl
      (shiftRight_one_toNat _) ((flagByte_toNat _).trans (lowBit_toNat _)),
    writesResultAndFlag_of_exec (fun b => b.toNat = (getV s x).toNat * 2 % 256)
      (fun f => f.toNat = (getV s x).toNat / 128) rfl
      (shiftLeft_one_toNat _) ((flagByte_toNat _).trans (highBit_toNat _))⟩

end Sys2Proof.Machine
end

section
/-! ## The index register and the memory transfers (R96 to R101) -/

namespace Sys2Proof.Machine

/-! ### Register dump and register load -/

/-- Settles O54: the dump stores its registers and nothing else, or takes the fault of its last byte. -/
theorem dumpStoresRegisters : Obligations.DumpStoresRegisters := by
  intro x s
  rcases execDump_cases x s with ⟨m, e, hin, hstored, hframe, _⟩ | ⟨hout, e⟩
  · exact ⟨fun _ => ⟨_, e, hstored, hframe, rfl⟩, fun hout => absurd hin (Nat.not_le.mpr hout)⟩
  · exact ⟨fun hin => absurd hin (Nat.not_le.mpr hout), fun _ => ⟨_, e, enterFault_phase s .memoryRange⟩⟩

/-- Settles O55: the load reads its registers and nothing else, or takes the fault of its last byte. -/
theorem loadReadsRegisters : Obligations.LoadReadsRegisters := by
  intro x s
  rcases execLoad_cases x s with ⟨v, e, hin, hloaded, hframe⟩ | ⟨hout, e⟩
  · exact ⟨fun _ => ⟨_, e, hloaded, hframe, rfl, fun _ => rfl⟩, fun hout => absurd hin (Nat.not_le.mpr hout)⟩
  · exact ⟨fun hin => absurd hin (Nat.not_le.mpr hout), fun _ => ⟨_, e, enterFault_phase s .memoryRange⟩⟩

/-- Settles O56: the dump keeps I, so the load reads the bytes the dump stored, whatever V became in between. -/
theorem dumpThenLoadRestores : Obligations.DumpThenLoadRestores := by
  intro x s v hin
  obtain ⟨t, hdump, hstored, _, hmem⟩ := (dumpStoresRegisters x s).1 hin
  have hidx : t.idx = s.idx := by rw [hmem]
  have haddr : ∀ k, indexAddr { t with v := v } k = indexAddr s k := fun k => congrArg (·.toNat + k) hidx
  obtain ⟨u, hload, hloaded, _⟩ := (loadReadsRegisters x { t with v := v }).1 (by rwa [haddr])
  refine ⟨t, u, hdump, hload, fun q hq => ?_⟩
  calc getV u q
    _ = memByte { t with v := v } (indexAddr s q.toNat) := by rw [hloaded q hq, haddr]
    _ = memByte t (indexAddr s q.toNat) := memByte_congr _ _ rfl rfl _
    _ = getV s q := hstored q hq

/-! ### Writes of the index register -/

/-- An instruction that writes a word to I leaves there what holds of the word, and writes nothing else. -/
theorem writesIndex_of_exec {i : Instr} {s : State} {w : Word} (P : Word → Prop)
    (h : exec i s = .next { s with idx := w }) (hw : P w) : ∃ t, exec i s = .next t ∧ P t.idx ∧ OnlyIdx s t :=
  ⟨_, h, hw, rfl, fun _ => rfl⟩

/-- The sum of ADD I is taken modulo 65536 (R97). -/
theorem idx_add_regWord_toNat (s : State) (x : Nibble) :
    (s.idx + regWord s x).toNat = (s.idx.toNat + (getV s x).toNat) % 65536 := by
  rw [BitVec.toNat_add, regWord_toNat]

/-- Five times a byte fits in a word, so the product of LD F never wraps (R98). -/
theorem regWord_mul_five_toNat (s : State) (x : Nibble) : (regWord s x * 5).toNat = (getV s x).toNat * 5 := by
  have hbyte := (getV s x).isLt
  have hproduct : (getV s x).toNat * 5 < 65536 := by omega
  rw [BitVec.toNat_mul, regWord_toNat]
  exact Nat.mod_eq_of_lt hproduct

/-- Settles O52: the three words written to I, each with its value. -/
theorem indexWrites : Obligations.IndexWrites := fun nnn x s =>
  ⟨writesIndex_of_exec (fun w => w.toNat = nnn.toNat) rfl (addrWord_toNat nnn),
    writesIndex_of_exec (fun w => w.toNat = (s.idx.toNat + (getV s x).toNat) % 65536) rfl (idx_add_regWord_toNat s x),
    writesIndex_of_exec (fun w => w.toNat = (getV s x).toNat * 5) rfl (regWord_mul_five_toNat s x)⟩

/-! ### Decimal digits -/

theorem hundreds_toNat (b : Byte) : (hundreds b).toNat = b.toNat / 100 := by
  have hbyte := b.isLt
  exact Nat.mod_eq_of_lt (by omega)

theorem tens_toNat (b : Byte) : (tens b).toNat = b.toNat / 10 % 10 :=
  Nat.mod_eq_of_lt (by omega)

theorem ones_toNat (b : Byte) : (ones b).toNat = b.toNat % 10 :=
  Nat.mod_eq_of_lt (by omega)

/-- The `k`-th byte LD B stores is the `k`-th digit. -/
theorem read_bcdMemory (x : Nibble) (s : State) (k : Fin 3) :
    Memory.read s.cfg.font (bcdMemory x s) (indexAddr s k) =
      [hundreds (getV s x), tens (getV s x), ones (getV s x)][k] := by
  have hoffset : indexAddr s k - indexAddr s 0 = k := Nat.add_sub_add_left s.idx.toNat k 0
  have hinside : indexAddr s 0 ≤ indexAddr s k ∧ indexAddr s k - indexAddr s 0 < 3 :=
    ⟨Nat.add_le_add_left k.val.zero_le _, by omega⟩
  refine (Memory.read_writeAll _ _ _ _ _).trans ((dif_pos hinside).trans ?_)
  simp only [hoffset, Fin.getElem_fin]

/-- LD B stores no byte outside its three. -/
theorem read_bcdMemory_outside (x : Nibble) (s : State) {a : Nat} (h : a < indexAddr s 0 ∨ indexAddr s 2 < a) :
    Memory.read s.cfg.font (bcdMemory x s) a = memByte s a := by
  refine (Memory.read_writeAll _ _ _ _ _).trans (dif_neg ?_)
  simp only [indexAddr, List.length_cons, List.length_nil] at h ⊢
  omega

/-- Settles O53: each byte stored is its digit, or the fault of the last byte is taken. -/
theorem bcdStoresDigits : Obligations.BcdStoresDigits := by
  intro x s
  rcases execLdB_cases x s with ⟨hin, e⟩ | ⟨hout, e⟩
  · refine ⟨fun _ => ⟨_, e, ?_, ?_, ?_, fun a => read_bcdMemory_outside x s, rfl⟩,
      fun hout => absurd hin (Nat.not_le.mpr hout)⟩
    · exact (congrArg BitVec.toNat (read_bcdMemory x s 0)).trans (hundreds_toNat _)
    · exact (congrArg BitVec.toNat (read_bcdMemory x s 1)).trans (tens_toNat _)
    · exact (congrArg BitVec.toNat (read_bcdMemory x s 2)).trans (ones_toNat _)
  · exact ⟨fun hin => absurd hin (Nat.not_le.mpr hout), fun _ => ⟨_, e, enterFault_phase s .memoryRange⟩⟩

end Sys2Proof.Machine
end


section
/-! ## The timer and key-wait instructions (R102 to R105) -/

namespace Sys2Proof.Machine

/-! ### Timers -/

/-- Settles O58: DT is the byte written to Vx, and the two timer writes touch no register and no byte of memory. -/
theorem timerTransfers : Obligations.TimerTransfers := fun _ s =>
  ⟨writesRegister_of_exec (· = s.dt) rfl rfl, ⟨_, rfl, rfl, rfl, fun _ => rfl⟩, ⟨_, rfl, rfl, rfl, fun _ => rfl⟩⟩

/-! ### The highest pressed key -/

/-- The scan goes up, so behind a pressed key with none pressed above it there is no other match to take (R103). -/
theorem highestKey_eq_some {s : State} {k : Fin 16} (hk : keyDown s k = true)
    (habove : ∀ j, k < j → keyDown s j = false) : highestKey s = some k := by
  obtain ⟨before, after, hsplit⟩ := List.append_of_mem (List.mem_finRange k)
  have hsorted : (before ++ k :: after).Pairwise (· < ·) := hsplit ▸ (List.sortedLT_finRange 16).pairwise
  obtain ⟨-, hfromKey, -⟩ := List.pairwise_append.mp hsorted
  have hlater : ∀ j ∈ after, k < j := fun _ => List.rel_of_pairwise_cons hfromKey
  have hnone : after.filter (keyDown s) = [] :=
    List.filter_eq_nil_iff.mpr fun j hj => by simp [habove j (hlater j hj)]
  unfold highestKey
  rw [scan_eq_getLast, hsplit]
  simp [hk, hnone]

theorem execLdVxK_of_highestKey (x : Nibble) {s : State} {k : Fin 16} (h : highestKey s = some k) :
    exec (.ldVxK x) s = .next (setV s x (BitVec.ofNat 8 k.val)) := by
  simp only [exec, execLdVxK, h]

/-- The number of a key fits in a byte. -/
theorem keyByte_toNat (k : Fin 16) : (BitVec.ofNat 8 k.val).toNat = k.val := by
  rw [BitVec.toNat_ofNat]
  omega

/-- Settles O59: the scan finds the highest pressed key, whose number fits in Vx, or none, and PC goes back. -/
theorem waitForKeyTakesHighest : Obligations.WaitForKeyTakesHighest := by
  refine fun x s => ⟨fun k hk habove => ?_, fun hnone => ?_⟩
  · exact writesRegister_of_exec (fun b => b.toNat = k.val)
      (execLdVxK_of_highestKey x (highestKey_eq_some hk habove)) (keyByte_toNat k)
  · exact ⟨_, execLdVxK_of_no_key x hnone, rfl, rfl, fun _ => rfl⟩

end Sys2Proof.Machine
end

section
/-! ## Faults: who raises which, and that they are terminal (60_exceptions.md R106 to R114) -/

namespace Sys2Proof.Machine

/-! ### The fault of an instruction and of a step -/

/-- No completed execution writes the phase (R30). -/
theorem phase_of_completes {i : Instr} {s t : State} (h : Completes i s t) : t.phase = s.phase := by
  cases h <;> rfl

theorem phase_endStep (u : State) : (endStep u).phase = u.phase := by
  unfold endStep
  split <;> rfl

theorem isFaulted_of_phase {s : State} {c : Fault} (h : s.phase = .faulted c) : isFaulted s = true :=
  (isFaulted_iff s).mpr ⟨c, h⟩

/-- Settles O31: a completed execution leaves no fault where there was none, and the other next states are the one fault
of the instruction, taken. -/
theorem eachInstructionHasOneFaultKind : Obligations.EachInstructionHasOneFaultKind := by
  intro i s t c hs h ht
  rcases exec_completes_or_faults h with hc | ⟨d, hd, rfl⟩
  · have hfaulted := isFaulted_of_phase ((phase_of_completes hc).symm.trans ht)
    exact Bool.noConfusion (hs.symm.trans hfaulted)
  · obtain rfl : d = c := Phase.faulted.inj ht
    exact hd

/-- Settles O18: the fault is the fetch's or the executed instruction's; the no-op of an undecodable word has none. -/
theorem stepFaultIsAttributed : Obligations.StepFaultIsAttributed := by
  intro keys rnd s t c h ht
  rcases stepWith_executes h with ⟨hpc, rfl⟩ | ⟨⟨hloaded, hpc⟩, u, hx, rfl⟩
  · exact .inl ⟨hpc, (Phase.faulted.inj ht).symm⟩
  · have hrunning : NoFault (fetchedState keys rnd s) := isFaulted_of_loaded _ hloaded
    have hkind : faultKind (executed (wordAtPc s)) = some c :=
      eachInstructionHasOneFaultKind _ _ u c hrunning hx ((phase_endStep u).symm.trans ht)
    refine .inr ⟨hpc, _, decode_of_executed rfl fun nnn hsys => ?_, hkind⟩
    rw [hsys] at hkind
    cases hkind

/-- The step of a loaded unit whose fetch would leave memory takes FETCH_RANGE before it decodes (R53, R112). -/
theorem stepWith_of_pc_gt (keys : BitVec 16) (rnd : Byte) {s : State} (hloaded : s.phase = .loaded)
    (hpc : 0xFFE < s.pc.toNat) : stepWith keys rnd s = .next (enterFault .fetchRange (beginStep keys rnd s)) := by
  have hfetch : fetch (beginStep keys rnd s) = .error .fetchRange := fetch_of_gt hpc
  simp only [stepWith, hloaded, runStep, hfetch]

/-- Settles O9: the fetch faults before memory is read. -/
theorem fetchBeyondMemoryFaults : Obligations.FetchBeyondMemoryFaults := fun keys rnd _ hloaded hpc =>
  ⟨_, stepWith_of_pc_gt keys rnd hloaded hpc, enterFault_phase _ _⟩

/-! ### A faulted unit admits `new` alone (R113, R127) -/

theorem stepWith_of_faulted (keys : BitVec 16) (rnd : Byte) {s : State} {c : Fault} (h : s.phase = .faulted c) :
    stepWith keys rnd s = .refused .stepWhenFaulted := by
  simp only [stepWith, h]

theorem loadUnit_of_faulted (bytes : List Byte) {s : State} {c : Fault} (h : s.phase = .faulted c) :
    loadUnit bytes s = .refused .loadWhenFaulted := by
  simp only [loadUnit, h]

theorem eq_new_of_transact_faulted {x : Transaction} {s t : State} (hs : isFaulted s = true)
    (h : transact x s = .next t) : x = .new := by
  obtain ⟨c, hc⟩ := (isFaulted_iff s).mp hs
  cases x with
  | new => rfl
  | load bytes => cases (loadUnit_of_faulted bytes hc).symm.trans h
  | step keys rnd => cases (stepWith_of_faulted keys rnd hc).symm.trans h

/-- Settles O20: a run that answers a next state had its first transaction admitted. -/
theorem onlyNewLeavesFaulted : Obligations.OnlyNewLeavesFaulted := by
  intro ts s t hs hne h
  cases ts with
  | nil => exact absurd rfl hne
  | cons x rest =>
    obtain ⟨u, hx, -⟩ := runHost_cons_eq_next h
    exact ⟨rest, congrArg (· :: rest) (eq_new_of_transact_faulted hs hx)⟩

end Sys2Proof.Machine
end

section
/-! ## Reset, load and the lifecycle (70_reset_and_hazards.md R125 to R129) -/

namespace Sys2Proof.Machine

/-! ### `load` (R126) -/

/-- Base and bound of the program area leave 3584 bytes for an image. -/
theorem loadImage_of_length_le {bytes : List Byte} (s : State) (h : bytes.length ≤ 3584) :
    loadImage bytes s =
      .ok { s with mem := Memory.writeAll s.cfg.font s.mem programBase bytes, phase := .loaded } :=
  if_pos (Nat.add_le_add_left h programBase)

theorem loadImage_of_length_gt {bytes : List Byte} (s : State) (h : 3584 < bytes.length) :
    loadImage bytes s = .error .loadOversize :=
  if_neg (Nat.not_le.mpr (Nat.add_lt_add_left h programBase))

theorem loadUnit_of_fresh (bytes : List Byte) {s : State} (h : s.phase = .fresh) :
    loadUnit bytes s = settle s (loadImage bytes s) := by
  simp only [loadUnit, h]

theorem loadUnit_of_loaded (bytes : List Byte) {s : State} (h : s.phase = .loaded) :
    loadUnit bytes s = .refused .loadWhenLoaded := by
  simp only [loadUnit, h]

/-- A Fresh unit installs an image that fits. -/
theorem loadUnit_of_length_le {bytes : List Byte} {s : State} (hfresh : s.phase = .fresh)
    (h : bytes.length ≤ 3584) :
    loadUnit bytes s =
      .next { s with mem := Memory.writeAll s.cfg.font s.mem programBase bytes, phase := .loaded } :=
  (loadUnit_of_fresh bytes hfresh).trans (settle_eq_next _ _ _ (loadImage_of_length_le s h))

/-- A Fresh unit takes LOAD_OVERSIZE for an image that does not fit. -/
theorem loadUnit_of_length_gt {bytes : List Byte} {s : State} (hfresh : s.phase = .fresh)
    (h : 3584 < bytes.length) : loadUnit bytes s = .next (enterFault .loadOversize s) :=
  (loadUnit_of_fresh bytes hfresh).trans (settle_eq_fault _ _ _ (loadImage_of_length_gt s h))

/-- An installed image reads back byte by byte from its base. -/
theorem Memory.read_writeAll_inside (font : Font) (bs : List Byte) (m : Memory) (a i : Nat) (h : i < bs.length) :
    Memory.read font (Memory.writeAll font m a bs) (a + i) = bs[i] := by
  have hoffset : a + i - a = i := Nat.add_sub_cancel_left a i
  rw [Memory.read_writeAll, dif_pos ⟨Nat.le_add_right a i, by rwa [hoffset]⟩]
  simp only [hoffset]

/-- Below its base and from its end on an image changes no byte. -/
theorem Memory.read_writeAll_outside (font : Font) (bs : List Byte) (m : Memory) (a c : Nat)
    (h : c < a ∨ a + bs.length ≤ c) :
    Memory.read font (Memory.writeAll font m a bs) c = Memory.read font m c := by
  rw [Memory.read_writeAll, dif_neg (by omega)]

/-- Settles O15: the image is written byte by byte from 0x200 on, or the fault is taken before any byte is written. -/
theorem loadInstallsImage : Obligations.LoadInstallsImage := fun bytes s hfresh =>
  ⟨fun h => ⟨_, loadUnit_of_length_le hfresh h, fun i hi => Memory.read_writeAll_inside s.cfg.font bytes s.mem _ i hi,
      fun a ha => Memory.read_writeAll_outside s.cfg.font bytes s.mem _ a ha, rfl⟩,
    fun h => ⟨_, loadUnit_of_length_gt hfresh h, enterFault_phase s .loadOversize⟩⟩

/-! ### Every instruction and every step completes or faults (R129) -/

/-- Settles O17: a completed execution keeps the phase, and the only other next state is a fault, taken. -/
theorem everyInstructionCompletesOrFaults : Obligations.EveryInstructionCompletesOrFaults := by
  intro i s
  obtain ⟨t, e, hc | ⟨c, -, rfl⟩⟩ := exec_outcome i s
  · exact ⟨t, e, .inl (phase_of_completes hc)⟩
  · exact ⟨_, e, .inr (enterFault_isFaulted s c)⟩

/-- Under the default policy every word is dispatched to an execution: none is refused (R58, R63). -/
theorem dispatchWord_of_ignore (w : Word) {s : State} (h : s.cfg.policy = .ignore) :
    dispatchWord w s = exec (executed w) s := by
  cases hd : decode w with
  | ok i =>
    rw [executed_of_decode hd]
    exact dispatchWord_of_accepted (h ▸ decodeUnder_ignore_of_decode hd)
  | error r =>
    obtain rfl := decode_error hd
    simp only [executed_of_error hd, dispatchWord, decodeUnder, hd]
    rfl

/-- A loaded unit that can fetch executes and then ends the step, under the default policy. -/
theorem stepWith_of_ignore (keys : BitVec 16) (rnd : Byte) {s : State} (hs : CanFetch s)
    (h : s.cfg.policy = .ignore) :
    stepWith keys rnd s = finishStep (exec (executed (wordAtPc s)) (fetchedState keys rnd s)) := by
  have hpolicy : (fetchedState keys rnd s).cfg.policy = .ignore := h
  rw [stepWith_of_canFetch keys rnd s hs, dispatchWord_of_ignore _ hpolicy]

/-- A loaded unit executes every step under the default policy, and stays loaded or takes a fault. -/
theorem stepWith_phase_of_loaded (keys : BitVec 16) (rnd : Byte) {s : State} (hloaded : s.phase = .loaded)
    (h : s.cfg.policy = .ignore) :
    ∃ t, stepWith keys rnd s = .next t ∧ (t.phase = .loaded ∨ isFaulted t = true) := by
  by_cases hpc : s.pc.toNat ≤ 0xFFE
  · obtain ⟨u, hx, hu⟩ := everyInstructionCompletesOrFaults (executed (wordAtPc s)) (fetchedState keys rnd s)
    refine ⟨endStep u, by rw [stepWith_of_ignore keys rnd ⟨hloaded, hpc⟩ h, hx]; rfl, ?_⟩
    rw [phase_endStep, isFaulted_endStep]
    exact hu.imp_left (·.trans hloaded)
  · exact ⟨_, stepWith_of_pc_gt keys rnd hloaded (Nat.not_le.mp hpc), .inr (enterFault_isFaulted _ _)⟩

/-! ### `new` and the reset state (R125) -/

/-- A memory that lists no cell has the font in its first 80 bytes. -/
theorem Memory.read_nil_font (font : Font) (a : Nat) (h : a < 80) : Memory.read font [] a = font[a] := dif_pos h

theorem Memory.read_nil_zero (font : Font) (a : Nat) (h : 80 ≤ a) : Memory.read font [] a = 0x00#8 :=
  dif_neg (Nat.not_lt.mpr h)

/-- Reset is idempotent on the model's own reset state. -/
theorem newUnit_reset : newUnit State.reset = State.reset := rfl

/-- Settles O14: a new unit lists no cell, and each of its arrays holds one value in every place. -/
theorem newGivesInitialState : Obligations.NewGivesInitialState := by
  refine ⟨fun s => ⟨newUnit s, rfl, Memory.read_nil_font s.cfg.font, Memory.read_nil_zero s.cfg.font, fun r => ?_,
    rfl, rfl, rfl, fun k => ?_, rfl, rfl, pixel_blankDisplay, rfl, fun k => ?_, rfl⟩, newUnit_reset⟩
  · exact Vector.getElem_replicate r.isLt
  · exact Vector.getElem_replicate k.isLt
  · exact Vector.getElem_replicate k.isLt

/-- Settles O23: the reset state is one that `new` leaves, and every new unit meets the invariant. -/
theorem resetMeetsInvariant : Obligations.ResetMeetsInvariant :=
  show UnitInv State.reset from newUnit_reset ▸ unitInv_newUnit State.reset

/-! ### The lifecycle (R127) -/

theorem stepWith_of_fresh (keys : BitVec 16) (rnd : Byte) {s : State} (h : s.phase = .fresh) :
    stepWith keys rnd s = .refused .stepWhenFresh := by
  simp only [stepWith, h]

/-- A Fresh unit admits every `load`: it ends loaded, or with the one fault of `load`. -/
theorem loadUnit_phase_of_fresh (bytes : List Byte) {s : State} (hfresh : s.phase = .fresh) :
    ∃ t, loadUnit bytes s = .next t ∧ (t.phase = .loaded ∨ t.phase = .faulted .loadOversize) := by
  rcases Nat.lt_or_ge 3584 bytes.length with h | h
  · exact ⟨_, loadUnit_of_length_gt hfresh h, .inr (enterFault_phase s .loadOversize)⟩
  · exact ⟨_, loadUnit_of_length_le hfresh h, .inl rfl⟩

/-- Settles O16: the transactions by the phase they are applied in. -/
theorem lifecycleOrderIsKept : Obligations.LifecycleOrderIsKept :=
  ⟨fun keys rnd _ => stepWith_of_fresh keys rnd, fun keys rnd _ _ => stepWith_of_faulted keys rnd,
    fun bytes _ => loadUnit_of_loaded bytes, fun bytes _ _ => loadUnit_of_faulted bytes,
    fun s => ⟨newUnit s, rfl, rfl⟩, fun bytes _ => loadUnit_phase_of_fresh bytes,
    fun keys rnd _ => stepWith_phase_of_loaded keys rnd⟩

end Sys2Proof.Machine
end

section
/-! ## Two draws of one sprite (R70; 95_test_vectors.md L1 item 5) -/

namespace Sys2Proof.Machine

/-- The sprite of a draw depends on the coordinates, I and memory alone. -/
theorem spriteBit_congr {s t : State} {x y : Nibble} (hx : getV t x = getV s x) (hy : getV t y = getV s y)
    (hidx : t.idx = s.idx) (hmem : SameBytes s t) (n : Nibble) (X : Fin 64) (Y : Fin 32) :
    spriteBit t x y n X Y = spriteBit s x y n X Y := by
  simp only [spriteBit, indexAddr, hx, hy, hidx, hmem _]

/-- A draw of a sprite in memory XORs the sprite into the display and leaves the collision in VF; with its coordinates
outside VF the sprite is in place for a second draw. -/
theorem exec_drw_keeps_sprite {x y n : Nibble} {s : State} (hin : SpriteInMemory s n) (hx : x ≠ vf) (hy : y ≠ vf) :
    ∃ t, exec (.drw x y n) s = .next t ∧
      (∀ X Y, pixel t.disp X Y = (pixel s.disp X Y ^^ spriteBit s x y n X Y)) ∧
      (getV t vf = 0x01#8 ↔ Collides s x y n) ∧
      SpriteInMemory t n ∧ ∀ X Y, spriteBit t x y n X Y = spriteBit s x y n X Y := by
  obtain ⟨t, e, hpixel, hset, hclear, hregs, -, hframe, hmem⟩ := (drwXorsSprite x y n s).1 hin
  have hidx : t.idx = s.idx := by rw [hframe]
  refine ⟨t, e, hpixel, ⟨fun h1 => ?_, hset⟩, ?_, spriteBit_congr (hregs x hx) (hregs y hy) hidx hmem n⟩
  · by_contra hc
    exact absurd (h1.symm.trans (hclear hc)) (by decide)
  · rwa [SpriteInMemory, indexAddr, hidx]

/-- A sprite bit 1 meets a lit cell of the drawn display exactly where it lay over a dark cell before. -/
theorem collides_of_drawn {x y n : Nibble} {s t : State}
    (hpixel : ∀ X Y, pixel t.disp X Y = (pixel s.disp X Y ^^ spriteBit s x y n X Y))
    (hsprite : ∀ X Y, spriteBit t x y n X Y = spriteBit s x y n X Y) :
    Collides t x y n ↔ ∃ X Y, spriteBit s x y n X Y = true ∧ pixel s.disp X Y = false := by
  refine exists_congr fun X => exists_congr fun Y => ?_
  rw [hsprite, hpixel]
  refine and_congr_right fun hbit => ?_
  rw [hbit, Bool.xor_true, Bool.not_eq_true']

/-- Settles O34: the second draw XORs the same sprite, which cancels the first, and collides where the first lit a
cell. -/
theorem drawingTwiceRestoresDisplay : Obligations.DrawingTwiceRestoresDisplay := by
  intro x y n s hin hx hy
  obtain ⟨t, ht, hpixel, -, hin', hsprite⟩ := exec_drw_keeps_sprite hin hx hy
  obtain ⟨u, hu, hpixel', hvf, -⟩ := exec_drw_keeps_sprite hin' hx hy
  refine ⟨t, u, ht, hu, display_ext _ _ fun X Y => ?_, hvf.trans (collides_of_drawn hpixel hsprite)⟩
  rw [hpixel', hpixel, hsprite, Bool.xor_assoc, Bool.xor_self, Bool.xor_false]

end Sys2Proof.Machine
end
